-- ==== Sys2Proof/Word.lean ====
section
/-! DEFINITION. The word type of the core, and the index of a general register. -/

namespace Sys2Proof

/-- A 16-bit word: a register's contents, a memory word, an address, an instruction word (R5 `XLEN`, `WLEN`, `ILEN`,
`ALEN`). Bit 0 is the least significant bit (R8). -/
abbrev Word := BitVec 16

/-- The index of a general register, 0 to 15 (R20). Every index is legal in every operand field. -/
abbrev Reg := Fin 16

end Sys2Proof
end

