-- ==== Sys2Proof/Syntax.lean ====
section
/-! DEFINITION. The instructions: one constructor per row of spec/opcode_table.json (R73). -/

namespace Sys2Proof

/-- The 16 instructions, each with the operand fields of its format (R62 to R72). An operand field has exactly the width
the encoding gives it, so that every value of this type is an instruction the hardware has. -/
inductive Instr where
  /-- R120, format R. -/
  | add (rd rs1 rs2 : Reg)
  /-- R121, format R. -/
  | sub (rd rs1 rs2 : Reg)
  /-- R122, format R. -/
  | and (rd rs1 rs2 : Reg)
  /-- R123, format R. -/
  | or (rd rs1 rs2 : Reg)
  /-- R124, format NOT. -/
  | not (rd rs1 : Reg)
  /-- R125, format R: `rs1` is the value, `rs2` holds the shift amount. -/
  | shl (rd rs1 rs2 : Reg)
  /-- R126, format R: `rs1` is the value, `rs2` holds the shift amount. -/
  | shr (rd rs1 rs2 : Reg)
  /-- R130, format LDI. -/
  | ldi (rd : Reg) (imm8 : BitVec 8)
  /-- R136, format LD. -/
  | ld (rd base : Reg) (imm4 : BitVec 4)
  /-- R137, format ST: `value` is the register whose contents are stored. -/
  | st (value base : Reg) (imm4 : BitVec 4)
  /-- R140, format BR. -/
  | br (off8 : BitVec 8)
  /-- R141, format BZ_BN. -/
  | bz (test : Reg) (off8 : BitVec 8)
  /-- R142, format BZ_BN. -/
  | bn (test : Reg) (off8 : BitVec 8)
  /-- R143, format JAL. -/
  | jal (t12 : BitVec 12)
  /-- R144, format JR. -/
  | jr (reg : Reg)
  /-- R150, format Q. -/
  | quit
  deriving DecidableEq, Repr

end Sys2Proof
end

