-- ==== Sys2Proof/WellFormed.lean ====
section
/-! DEFINITION. Well-formedness. A decoded instruction carries it in its type: a register field is a `Reg`, an immediate
has the width of its field, so no value of `Instr` is ill-formed and no statement needs that as a premise. What can be
ill-formed is an operand VALUE before it is packed into a field (R89 to R92, R94), and a WORD that has a bit set which the
assembler writes as 0 (R62, R75). -/

namespace Sys2Proof

/-- The value of an `ldi` operand (R89): -128 to 255, the interval kept as it is (U9). -/
def fitsLdi (v : Int) : Bool := decide (-128 ≤ v ∧ v ≤ 255)

/-- The offset of `ld` and `st` (R90): 0 to 15. -/
def fitsImm4 (v : Int) : Bool := decide (0 ≤ v ∧ v ≤ 15)

/-- The offset of `br`, `bz`, `bn` (R91): -128 to 255, although the engine reads 128 to 255 as negative (C6). -/
def fitsOffset (v : Int) : Bool := decide (-128 ≤ v ∧ v ≤ 255)

/-- The target of `jal` (R92): 0 to 0xFFF. -/
def fitsTarget (v : Int) : Bool := decide (0 ≤ v ∧ v ≤ 0xFFF)

/-- A data literal (R94): -32768 to 65535. -/
def fitsData (v : Int) : Bool := decide (-32768 ≤ v ∧ v ≤ 65535)

/-- The bits of a word that take part in decoding, by its opcode: all but the bits that R62 shows as 0 (`ignored_bits` of
spec/opcode_table.json). -/
def significantMask (w : Word) : Word :=
  match (w >>> 12).toNat with
  | 0x4 => 0xFFF0
  | 0xA => 0xFFF0
  | 0xE => 0xF0F0
  | 0xF => 0xF000
  | _ => 0xFFFF

/-- The word is one the assembler emits: every ignored bit is 0 (`canonical_mask` of spec/opcode_table.json). -/
def canonicalWord (w : Word) : Bool := w &&& significantMask w == w

end Sys2Proof
end

