-- ==== Sys2Proof/Decode.lean ====
section
/-! DEFINITION. The decoder of R75 and, after it, the encoder of R63 to R72. Decoding a word is total: no word is refused
(R76). What can be refused, by name, is a sequence that is not exactly one word (R60). -/

namespace Sys2Proof

/-! ### The fields of an instruction word (R61) -/

/-- `op = w[15:12]`. -/
def fieldOp (w : Word) : BitVec 4 := w.extractLsb' 12 4

/-- `fa = w[11:8]`. -/
def fieldA (w : Word) : BitVec 4 := w.extractLsb' 8 4

/-- `fb = w[7:4]`. -/
def fieldB (w : Word) : BitVec 4 := w.extractLsb' 4 4

/-- `fc = w[3:0]`. -/
def fieldC (w : Word) : BitVec 4 := w.extractLsb' 0 4

/-- `imm8 = w[7:0]`, used by `ldi` only. -/
def fieldImm8 (w : Word) : BitVec 8 := w.extractLsb' 0 8

/-- `off8 = w[11:4]`, used by `br`, `bz`, `bn` only. -/
def fieldOff8 (w : Word) : BitVec 8 := w.extractLsb' 4 8

/-- `t12 = w[11:0]`, used by `jal` only. -/
def fieldT12 (w : Word) : BitVec 12 := w.extractLsb' 0 12

/-- The register a 4-bit field names: its value is the index (R63). -/
def regOfField (f : BitVec 4) : Reg := f.toFin

/-! ### Decoding -/

/-- `Decode(w)` of R75: a closed 16-way case over the opcode alone (the last line says
that a 4-bit field has no further value). The bits R62 shows as 0 are not looked at. -/
def decodeWord (w : Word) : Instr :=
  let a := regOfField (fieldA w)
  let b := regOfField (fieldB w)
  let c := regOfField (fieldC w)
  match (fieldOp w).toFin with
  | ⟨0x0, _⟩ => .add a b c
  | ⟨0x1, _⟩ => .sub a b c
  | ⟨0x2, _⟩ => .and a b c
  | ⟨0x3, _⟩ => .or a b c
  | ⟨0x4, _⟩ => .not a b
  | ⟨0x5, _⟩ => .shl a b c
  | ⟨0x6, _⟩ => .shr a b c
  | ⟨0x7, _⟩ => .ldi a (fieldImm8 w)
  | ⟨0x8, _⟩ => .ld a c (fieldB w)
  | ⟨0x9, _⟩ => .st b c (fieldA w)
  | ⟨0xA, _⟩ => .br (fieldOff8 w)
  | ⟨0xB, _⟩ => .bz c (fieldOff8 w)
  | ⟨0xC, _⟩ => .bn c (fieldOff8 w)
  | ⟨0xD, _⟩ => .jal (fieldT12 w)
  | ⟨0xE, _⟩ => .jr b
  | ⟨0xF, _⟩ => .quit
  | ⟨n + 16, h⟩ => absurd h (Nat.not_lt_of_ge (Nat.le_add_left 16 n))

/-- Why a sequence of words is not an instruction: an instruction is exactly one word (R60). -/
inductive DecodeReject where
  /-- There is no word. -/
  | noWord
  /-- There is more than one word. -/
  | extraWords
  deriving DecidableEq, Repr

/-- Decode a sequence of words as one instruction: total, rejecting by name. -/
def decode : List Word → Except DecodeReject Instr
  | [] => .error .noWord
  | [w] => .ok (decodeWord w)
  | _ :: _ :: _ => .error .extraWords

/-- The words of an instruction whose bits are `w`, first word in bits 15 to 0, with every bit at or above `nbits` zero. -/
def tableWords (nbits w : Nat) : List Word :=
  (List.range ((nbits + 15) / 16)).map fun k => BitVec.ofNat 16 ((w % 2 ^ nbits) >>> (16 * k))

/-- What the decoder reads from a row of spec/opcode_table.json, given as its bits. -/
def decodeTableWord (nbits w : Nat) : Option Instr :=
  match decode (tableWords nbits w) with
  | .ok i => some i
  | .error _ => none

/-! ### Encoding -/

/-- The opcode of an instruction (R73; the grouped rows by position, D6, assumption log 4). -/
def opcode : Instr → BitVec 4
  | .add _ _ _ => 0x0
  | .sub _ _ _ => 0x1
  | .and _ _ _ => 0x2
  | .or _ _ _ => 0x3
  | .not _ _ => 0x4
  | .shl _ _ _ => 0x5
  | .shr _ _ _ => 0x6
  | .ldi _ _ => 0x7
  | .ld _ _ _ => 0x8
  | .st _ _ _ => 0x9
  | .br _ => 0xA
  | .bz _ _ => 0xB
  | .bn _ _ => 0xC
  | .jal _ => 0xD
  | .jr _ => 0xE
  | .quit => 0xF

/-- The 4-bit field that names a register. -/
def fieldOfReg (r : Reg) : BitVec 4 := .ofFin r

/-- A word from its opcode and the twelve bits below it (R61). -/
def packWord (op : BitVec 4) (operands : BitVec 12) : Word := op ++ operands

/-- Three 4-bit fields, `fa ++ fb ++ fc` (R61). -/
def pack444 (a b c : BitVec 4) : BitVec 12 := a ++ b ++ c

/-- A 4-bit field above an 8-bit one (R65). -/
def pack48 (a : BitVec 4) (b : BitVec 8) : BitVec 12 := a ++ b

/-- An 8-bit field above a 4-bit one (R68, R69). -/
def pack84 (a : BitVec 8) (b : BitVec 4) : BitVec 12 := a ++ b

/-- The twelve bits below the opcode (R63 to R72); bits the decoder ignores are written as 0. -/
def operandBits : Instr → BitVec 12
  | .add rd rs1 rs2 => pack444 (fieldOfReg rd) (fieldOfReg rs1) (fieldOfReg rs2)
  | .sub rd rs1 rs2 => pack444 (fieldOfReg rd) (fieldOfReg rs1) (fieldOfReg rs2)
  | .and rd rs1 rs2 => pack444 (fieldOfReg rd) (fieldOfReg rs1) (fieldOfReg rs2)
  | .or rd rs1 rs2 => pack444 (fieldOfReg rd) (fieldOfReg rs1) (fieldOfReg rs2)
  | .not rd rs1 => pack444 (fieldOfReg rd) (fieldOfReg rs1) 0
  | .shl rd rs1 rs2 => pack444 (fieldOfReg rd) (fieldOfReg rs1) (fieldOfReg rs2)
  | .shr rd rs1 rs2 => pack444 (fieldOfReg rd) (fieldOfReg rs1) (fieldOfReg rs2)
  | .ldi rd imm8 => pack48 (fieldOfReg rd) imm8
  | .ld rd base imm4 => pack444 (fieldOfReg rd) imm4 (fieldOfReg base)
  | .st value base imm4 => pack444 imm4 (fieldOfReg value) (fieldOfReg base)
  | .br off8 => pack84 off8 0
  | .bz test off8 => pack84 off8 (fieldOfReg test)
  | .bn test off8 => pack84 off8 (fieldOfReg test)
  | .jal t12 => t12
  | .jr reg => pack444 0 (fieldOfReg reg) 0
  | .quit => 0

/-- The word of an instruction: opcode in bits 15 to 12 for all formats (R61). -/
def encode (i : Instr) : Word := packWord (opcode i) (operandBits i)

end Sys2Proof
end

