-- ==== Sys2Proof/Config.lean ====
section
/-! DEFINITION. What is fixed for the machine: the parameters of R5, and the open parameters of R6 as constants that
have no body, so that no proof can see which of the admitted values the hardware has. -/

namespace Sys2Proof.Config

/-- `RESET_PC` (R5): execution starts at address 0. -/
def resetPc : Word := 0

/-- `LINK` (R5): the register that `jal` writes. -/
def link : Reg := 15

/-- `MAX_STEPS` (R5): the step cap of one `run()`. -/
def maxSteps : Nat := 10000

/-- The number of word addresses, 0 to 0xFFFF (R41). -/
def addressSpace : Nat := 65536

/-- The two readings of `LDI_EXT` (R6): how `ldi` widens its 8-bit immediate. -/
inductive LdiExt where
  | zero
  | sign
  deriving DecidableEq, Repr, Inhabited

/-- The three readings of `SHAMT_BITS` (R6): how many low bits of the shift-amount register a shift uses. -/
inductive ShamtBits where
  | four
  | five
  | sixteen
  deriving DecidableEq, Repr, Inhabited

/-- The number of bits a reading of `SHAMT_BITS` stands for (R128). -/
def ShamtBits.bits : ShamtBits → Nat
  | .four => 4
  | .five => 5
  | .sixteen => 16

/-- `LDI_EXT` of the hardware: an open parameter, either value (R6, R130; assumption log 1). -/
opaque ldiExt : LdiExt

/-- `SHAMT_BITS` of the hardware: an open parameter, any of the three values (R6, R128; assumption log 2). -/
opaque shamtBits : ShamtBits

/-- Which of its two effects the step report of a `jal` names: the link register's new value (true) or the new pc
(false). R106 gives a report ONE effect and does not say which (assumption log 13). -/
opaque jalReportsLink : Bool

end Sys2Proof.Config
end

