-- ==== Sys2Proof/Machine/State.lean ====
section
/-! DEFINITION. The state of the core, all of it: the tuple (x[0..15], pc, pc_oor, run_state, compiled, last_fault, Mem)
of spec/10_state.md, as plain data; and the ways a step can stop outside it. -/

namespace Sys2Proof.Machine

/-- `run_state` (R27): the engine's two states. -/
inductive RunState where
  | halted
  | running
  deriving DecidableEq, Repr

/-- The execution faults the engine records (R160). Each is an effect of the machine: the engine halts and `last_fault`
holds it (R167). `pc` is the pc at which it was taken (R29). -/
inductive ExecFault where
  /-- Code 1: at fetch, the pc is out of range or names an absent address (R161). Raised by `step()`. -/
  | pcOutOfRange (pc : Word)
  /-- Code 2: `MAX_STEPS` steps in one `run()` (R162). Raised by `run()` only. -/
  | stepCapReached (pc : Word)
  /-- Code 3: an opcode with no behaviour (R163). Nothing raises it. -/
  | unknownOpcode (word : Word)
  /-- Code 4: the effective address `ea` of `ld` or `st` is above 0xFFFF (R164). Raised by `ld` and `st`. -/
  | eaOutOfRange (pc : Word) (ea : Nat)
  deriving DecidableEq, Repr

/-- The code of a fault (R160). -/
def ExecFault.code : ExecFault → Nat
  | .pcOutOfRange _ => 1
  | .stepCapReached _ => 2
  | .unknownOpcode _ => 3
  | .eaOutOfRange _ _ => 4

/-- The memory image (R35): the present addresses with their words, addresses strictly rising. The smallest unit the core
addresses is the 16-bit word (R41), so a cell is a word (assumption log 7). An address that is not listed is absent: it
cannot be fetched (R44) and a data read of it gives `Memory.unlisted`. A present word of value 0 IS listed. -/
abbrev Memory := List (Nat × Word)

/-- What a data read of an absent address gives: "addresses never written remain absent and read as 0" (R43). -/
def Memory.unlisted : Word := 0

/-- Every address from `lo` on: strictly rising and inside the address space. -/
def Memory.wfFrom : Nat → Memory → Bool
  | _, [] => true
  | lo, (a, _) :: m => decide (lo ≤ a) && decide (a < Config.addressSpace) && Memory.wfFrom (a + 1) m

/-- The canonical form: addresses strictly rising, each in 0 to 0xFFFF. Memories in this form with the same words at the
same addresses are the same list. -/
def Memory.wf (m : Memory) : Bool := Memory.wfFrom 0 m

/-- The state of the core. Nothing else is state (spec/10_state.md). -/
structure State where
  /-- `x[0]` to `x[15]` (R20). -/
  regs : Vector Word 16
  /-- The address of the instruction being executed (R24). -/
  pc : Word
  /-- `pc_oor` (R25): the next fetch is out of range. -/
  pcOor : Bool
  /-- `run_state` (R27). -/
  runState : RunState
  /-- `compiled` (R28). -/
  compiled : Bool
  /-- `last_fault` (R29). -/
  lastFault : Option ExecFault
  /-- `Mem` (R35). -/
  mem : Memory
  deriving DecidableEq, Repr

/-- A stop outside the state. The execution faults of the spec are NOT here: their entry is described (R167), so they are
next states. -/
inductive Fault where
  /-- The source's "unrecoverable fault if ever reached (defensive-only)" for an opcode without behaviour (R163). Nobody
  raises it: decoding is total. Safe. -/
  | unknownOpcode (word : Word)
  deriving DecidableEq, Repr

/-- No meaning. No instruction ends in one. -/
inductive Refusal where
  /-- Raised by an arm of `exec` whose instruction has no meaning yet; there is none. Safe. -/
  | notModelled (mnemonic : String)
  /-- Raised by the host operation `compile` for a program that does not fit 0 to 0xFFFF: "larger assemblies are outside
  the model" (D15). Safe. -/
  | imageTooLarge
  deriving DecidableEq, Repr

/-- The machine after power-on, and after `reset()` with nothing compiled (R34, R190, R191): registers zero, pc 0, halted,
not compiled, no fault, memory empty. -/
def State.reset : State where
  regs := Vector.replicate 16 0
  pc := Config.resetPc
  pcOor := false
  runState := .halted
  compiled := false
  lastFault := none
  mem := []

end Sys2Proof.Machine
end

