-- ==== Sys2Proof/Machine/Ops.lean ====
section
/-! DEFINITION. The named operations over memory, registers, the pc and the run state that every meaning is written with,
among them taking an execution fault. There is no return from a fault: "no return instruction, no handler, no resumption"
(R169); recovery is the host's `reset()` or a compile (Machine/Engine.lean). -/

namespace Sys2Proof.Machine

/-! ### Memory (R42 to R45) -/

/-- The word at an address, if the address is present. -/
def Memory.lookup : Memory → Nat → Option Word
  | [], _ => none
  | (b, w) :: m, a => if a = b then some w else Memory.lookup m a

/-- Store a word, keeping the canonical form; the address becomes present (R45). -/
def Memory.write : Memory → Nat → Word → Memory
  | [], a, v => [(a, v)]
  | (b, w) :: m, a, v =>
    if a < b then (a, v) :: (b, w) :: m
    else if a = b then (a, v) :: m
    else (b, w) :: Memory.write m a v

/-- The memory that holds exactly an image (R57), given as pairs of an address and its word; a list that names an address
twice stands for the map with the later word. -/
def Memory.ofImage (image : List (Word × Word)) : Memory :=
  image.foldl (fun m p => m.write p.1.toNat p.2) []

/-- The word at address `a`, if `Present(a)` (R42). -/
def State.lookup (s : State) (a : Word) : Option Word := s.mem.lookup a.toNat

/-- `Present(a)` (R42). -/
def State.present (s : State) (a : Word) : Bool := (s.lookup a).isSome

/-- `MemRead(a, 1)` (R43): an absent address reads as 0, is no fault and stays absent. -/
def State.memRead (s : State) (a : Word) : Word := (s.lookup a).getD Memory.unlisted

/-- `MemWrite(a, 1, v)` (R45). -/
def State.memWrite (s : State) (a : Word) (v : Word) : State := { s with mem := s.mem.write a.toNat v }

/-- `Fetch(pc)` (R44): nothing when `pc_oor` is set or the address is absent, whatever it would read as for data. -/
def State.fetch (s : State) : Option Word := if s.pcOor then none else s.lookup s.pc

/-! ### Registers (R20, R21) -/

/-- `x[r]`. -/
def State.reg (s : State) (r : Reg) : Word := s.regs[r]

/-- `x[r] <- v`. No register is hardwired (R20). -/
def State.writeReg (s : State) (r : Reg) (v : Word) : State := { s with regs := s.regs.set r v }

/-! ### The program counter (R24, R25, R104) -/

/-- `SetPC(n)` of R25 for an integer of any sign and size: the pc modulo 2^16, and whether `n` is out of range. -/
def State.setPc (s : State) (n : Int) : State :=
  { s with pc := BitVec.ofInt 16 n, pcOor := decide (n < 0 ∨ 0xFFFF < n) }

/-- The default advance, `SetPC(pc + 1)` (R104): it does not wrap into address 0. -/
def State.advance (s : State) : State := s.setPc ((s.pc.toNat : Int) + 1)

/-- `pc <- target; pc_oor <- 0`, for `jal` and `jr` (R143, R144). -/
def State.jump (s : State) (target : Word) : State := { s with pc := target, pcOor := false }

/-! ### Halting and faults -/

/-- `run_state <- Halted` (R150). -/
def State.halt (s : State) : State := { s with runState := .halted }

/-- `raise ExecutionFault(kind, info)` (R167): the engine halts and the fault is recorded; registers, pc, pc_oor, memory and
the compiled flag are unchanged. No register saves the pc, no mode changes and control goes nowhere. -/
def State.raise (s : State) (f : ExecFault) : State := { s with runState := .halted, lastFault := some f }

/-- The precondition of `step()` and `run()`: "Running and compiled" (R100). -/
def State.enabled (s : State) : Bool := decide (s.runState = .running) && s.compiled

/-! ### Placing one instruction -/

/-- The machine with a word where the next step fetches its instruction, able to fetch it: the word stands at the pc, the
pc is in range, the engine is Running and compiled (R100). It stands for loading a program that has the word there
(assumption log 8). -/
def State.placeWord (s : State) (w : Word) : State :=
  { s.memWrite s.pc w with pcOor := false, runState := .running, compiled := true }

end Sys2Proof.Machine
end

