-- ==== Sys2Proof/Machine/Operands.lean ====
section
/-! DEFINITION. The operand forms: registers, the widened immediates of R74, the effective address, the branch and jump
targets, and the shift count. -/

namespace Sys2Proof.Machine

/-- `sint8(v)` of R8: the two's-complement reading of an 8-bit field, -128 to 127. -/
def sint8 (v : BitVec 8) : Int := if v.toNat < 128 then (v.toNat : Int) else (v.toNat : Int) - 256

/-- `zext_16` of an 8-bit field (R8). -/
def zext16 (v : BitVec 8) : Word := v.setWidth 16

/-- `sext_8to16` of R8. -/
def sext8to16 (v : BitVec 8) : Word := if v.toNat < 128 then zext16 v else zext16 v + 0xFF00

/-- The value `ldi` writes, by the reading of `LDI_EXT` (R130). Immediates below 0x80 give the same value under both (R6)
and are decided first, so that such an `ldi` is evaluated without asking which reading holds. -/
def ldiValue (ext : Config.LdiExt) (imm8 : BitVec 8) : Word :=
  if imm8.toNat < 128 then zext16 imm8
  else match ext with
    | .zero => zext16 imm8
    | .sign => sext8to16 imm8

/-- The shift count `n = x[rs2] mod 2^SHAMT_BITS` (R125, R128). Amounts 0 to 15 give the same count under all three readings
(R6) and are decided first, so that such a shift is evaluated without asking which reading holds. -/
def shiftCount (bits : Config.ShamtBits) (amount : Word) : Nat :=
  if amount.toNat < 16 then amount.toNat else amount.toNat % 2 ^ bits.bits

/-- The effective address of `ld` and `st`, `x[base] + imm4` (R135): an integer, 0 to 0x1000E, not wrapped (R46). -/
def effectiveAddress (s : State) (base : Reg) (imm4 : BitVec 4) : Nat := (s.reg base).toNat + imm4.toNat

/-- Use the effective address, or take `EaOutOfRange` when it exceeds 0xFFFF (R46, R135, R164). -/
def withAddress (s : State) (base : Reg) (imm4 : BitVec 4) (access : Word → State) : State :=
  let ea := effectiveAddress s base imm4
  if 0xFFFF < ea then s.raise (.eaOutOfRange s.pc ea) else access (BitVec.ofNat 16 ea)

/-- The target of a relative branch (R145): relative to the branch itself, an integer, not wrapped. -/
def branchTarget (pc : Word) (off8 : BitVec 8) : Int := (pc.toNat : Int) + sint8 off8

/-- The target of `jal` (R143): `pc[15:12] ++ t12`, with the pc of the `jal` itself. -/
def jalTarget (pc : Word) (t12 : BitVec 12) : Word := pc.extractLsb' 12 4 ++ t12

/-- The link value of `jal` (R143): `(pc + 1) mod 2^16`. -/
def linkValue (pc : Word) : Word := pc + 1

end Sys2Proof.Machine
end

