-- ==== Sys2Proof/Machine/Alu.lean ====
section
/-! DEFINITION. The meanings of `add`, `sub`, `and`, `or`, `not`, `shl`, `shr` (spec/41_alu.md). -/

namespace Sys2Proof.Machine

/-- "Write a register and advance PC by 1" (R103). The value is computed from the state before any write (R105). -/
def writeResult (s : State) (rd : Reg) (v : Word) : State := (s.writeReg rd v).advance

/-- R120. -/
def execAdd (rd rs1 rs2 : Reg) (s : State) : Host.Outcome State Fault Refusal :=
  .next (writeResult s rd (s.reg rs1 + s.reg rs2))

/-- R121: the subtrahend is the second source (D17, assumption log 10). -/
def execSub (rd rs1 rs2 : Reg) (s : State) : Host.Outcome State Fault Refusal :=
  .next (writeResult s rd (s.reg rs1 - s.reg rs2))

/-- R122. -/
def execAnd (rd rs1 rs2 : Reg) (s : State) : Host.Outcome State Fault Refusal :=
  .next (writeResult s rd (s.reg rs1 &&& s.reg rs2))

/-- R123. -/
def execOr (rd rs1 rs2 : Reg) (s : State) : Host.Outcome State Fault Refusal :=
  .next (writeResult s rd (s.reg rs1 ||| s.reg rs2))

/-- R124. -/
def execNot (rd rs1 : Reg) (s : State) : Host.Outcome State Fault Refusal :=
  .next (writeResult s rd (~~~ s.reg rs1))

/-- R125 under a given reading of `SHAMT_BITS`: zeros enter at bit 0. -/
def shlWith (bits : Config.ShamtBits) (rd rs1 rs2 : Reg) (s : State) : State :=
  writeResult s rd (s.reg rs1 <<< shiftCount bits (s.reg rs2))

/-- R125. -/
def execShl (rd rs1 rs2 : Reg) (s : State) : Host.Outcome State Fault Refusal :=
  .next (shlWith Config.shamtBits rd rs1 rs2 s)

/-- R126 under a given reading of `SHAMT_BITS`: a logical shift, zeros enter at bit 15. -/
def shrWith (bits : Config.ShamtBits) (rd rs1 rs2 : Reg) (s : State) : State :=
  writeResult s rd (s.reg rs1 >>> shiftCount bits (s.reg rs2))

/-- R126. -/
def execShr (rd rs1 rs2 : Reg) (s : State) : Host.Outcome State Fault Refusal :=
  .next (shrWith Config.shamtBits rd rs1 rs2 s)

end Sys2Proof.Machine
end

