-- ==== Sys2Proof/Machine/Flags.lean ====
section
/-! DEFINITION. The core has no flag (R26): no instruction writes one, and carry, borrow, overflow and shifted-out bits are
discarded (R127). What stands here are the two conditions that a branch tests on a register. -/

namespace Sys2Proof.Machine

/-- The condition of `bz` (R141): all 16 bits are zero. -/
def isZero (v : Word) : Bool := v == 0

/-- The condition of `bn` (R142): bit 15, the sign bit, is set. -/
def isNegative (v : Word) : Bool := v.getLsbD 15

end Sys2Proof.Machine
end

