-- ==== Sys2Proof/Machine/Control.lean ====
section
/-! DEFINITION. The meanings of `br`, `bz`, `bn`, `jal`, `jr` (spec/44_control_flow.md). -/

namespace Sys2Proof.Machine

/-- A relative branch that is taken exactly when `taken` holds, else the default advance (R145, R104). -/
def branchIf (taken : Bool) (off8 : BitVec 8) (s : State) : State :=
  if taken then s.setPc (branchTarget s.pc off8) else s.advance

/-- R140: always taken. -/
def execBr (off8 : BitVec 8) (s : State) : Host.Outcome State Fault Refusal :=
  .next (branchIf true off8 s)

/-- R141. -/
def execBz (test : Reg) (off8 : BitVec 8) (s : State) : Host.Outcome State Fault Refusal :=
  .next (branchIf (isZero (s.reg test)) off8 s)

/-- R142. -/
def execBn (test : Reg) (off8 : BitVec 8) (s : State) : Host.Outcome State Fault Refusal :=
  .next (branchIf (isNegative (s.reg test)) off8 s)

/-- R143: link and target both from the pc of the `jal` itself. -/
def execJal (t12 : BitVec 12) (s : State) : Host.Outcome State Fault Refusal :=
  .next ((s.writeReg Config.link (linkValue s.pc)).jump (jalTarget s.pc t12))

/-- R144: any register, all 16 bits. -/
def execJr (reg : Reg) (s : State) : Host.Outcome State Fault Refusal :=
  .next (s.jump (s.reg reg))

end Sys2Proof.Machine
end

