-- ==== Sys2Proof/Machine/Ldi.lean ====
section
/-! DEFINITION. The meaning of `ldi` (spec/42_ldi.md). -/

namespace Sys2Proof.Machine

/-- R130 under a given reading of `LDI_EXT`: all 16 bits of `rd` are written. -/
def ldiWith (ext : Config.LdiExt) (rd : Reg) (imm8 : BitVec 8) (s : State) : State :=
  writeResult s rd (ldiValue ext imm8)

/-- R130. -/
def execLdi (rd : Reg) (imm8 : BitVec 8) (s : State) : Host.Outcome State Fault Refusal :=
  .next (ldiWith Config.ldiExt rd imm8 s)

end Sys2Proof.Machine
end

