-- ==== Sys2Proof/Machine/LoadStore.lean ====
section
/-! DEFINITION. The meanings of `ld` and `st` (spec/43_load_store.md). -/

namespace Sys2Proof.Machine

/-- R136: the word at the effective address, 0 if it is absent, into `rd`; the base is read before `rd` is written. -/
def execLd (rd base : Reg) (imm4 : BitVec 4) (s : State) : Host.Outcome State Fault Refusal :=
  .next (withAddress s base imm4 fun a => writeResult s rd (s.memRead a))

/-- R137: the value register's word to the effective address, which becomes present. -/
def execSt (value base : Reg) (imm4 : BitVec 4) (s : State) : Host.Outcome State Fault Refusal :=
  .next (withAddress s base imm4 fun a => (s.memWrite a (s.reg value)).advance)

end Sys2Proof.Machine
end

