-- ==== Sys2Proof/Machine/System.lean ====
section
/-! DEFINITION. The meaning of `quit` (spec/45_system.md). -/

namespace Sys2Proof.Machine

/-- R150: the engine halts; the pc stays at the `quit`, and no fault is recorded. -/
def execQuit (s : State) : Host.Outcome State Fault Refusal := .next s.halt

end Sys2Proof.Machine
end

