-- ==== Sys2Proof/Machine/Dispatch.lean ====
section
/-! DEFINITION. `exec`: "a closed, exhaustive 16-way case" (R103), one arm per instruction. -/

namespace Sys2Proof.Machine

def exec (i : Instr) (s : State) : Host.Outcome State Fault Refusal :=
  match i with
  | .add rd rs1 rs2 => Sys2Proof.Machine.execAdd rd rs1 rs2 s
  | .sub rd rs1 rs2 => Sys2Proof.Machine.execSub rd rs1 rs2 s
  | .and rd rs1 rs2 => Sys2Proof.Machine.execAnd rd rs1 rs2 s
  | .or rd rs1 rs2 => Sys2Proof.Machine.execOr rd rs1 rs2 s
  | .not rd rs1 => Sys2Proof.Machine.execNot rd rs1 s
  | .shl rd rs1 rs2 => Sys2Proof.Machine.execShl rd rs1 rs2 s
  | .shr rd rs1 rs2 => Sys2Proof.Machine.execShr rd rs1 rs2 s
  | .ldi rd imm8 => Sys2Proof.Machine.execLdi rd imm8 s
  | .ld rd base imm4 => Sys2Proof.Machine.execLd rd base imm4 s
  | .st value base imm4 => Sys2Proof.Machine.execSt value base imm4 s
  | .br off8 => Sys2Proof.Machine.execBr off8 s
  | .bz test off8 => Sys2Proof.Machine.execBz test off8 s
  | .bn test off8 => Sys2Proof.Machine.execBn test off8 s
  | .jal t12 => Sys2Proof.Machine.execJal t12 s
  | .jr reg => Sys2Proof.Machine.execJr reg s
  | .quit => Sys2Proof.Machine.execQuit s

end Sys2Proof.Machine
end

