-- ==== Sys2Proof/Machine/Step.lean ====
section
/-! DEFINITION. `step()` (R100): fetch, decode, execute, as one transition. -/

namespace Sys2Proof.Machine

/-- `step()` of R100. An engine that is not Running and compiled is left as it is (R109, assumption log 6). -/
def step (s : State) : Host.Outcome State Fault Refusal :=
  if s.enabled then
    match s.fetch with
    | none => .next (s.raise (.pcOutOfRange s.pc))
    | some w => exec (decodeWord w) s
  else .next s

/-- The state with the instruction whose bits are `w` (every bit at or above `nbits` zero) stored where `step` fetches its
next instruction, and able to fetch it. -/
def State.withFetchWord (s : State) (nbits w : Nat) : State := s.placeWord (BitVec.ofNat 16 (w % 2 ^ nbits))

end Sys2Proof.Machine
end

