-- ==== Sys2Proof/Machine/AsmText.lean ====
section
/-! DEFINITION. The text side of the assembler (R80 to R88): characters, lines, tokens, registers and numbers. Text is a
list of characters. -/

namespace Sys2Proof.Asm

/-- Source text, a line, a token, a label. -/
abbrev Text := List Char

/-- White space. -/
def isSpace (c : Char) : Bool := c == ' ' || c == '\t' || c == '\r' || c == '\n'

/-- What separates the tokens of an instruction: "commas, parentheses, and whitespace" (R86). -/
def isSeparator (c : Char) : Bool := c == ',' || c == '(' || c == ')' || isSpace c

/-- Cut a text at every character for which `p` holds; the pieces may be empty. -/
def cutAt (p : Char → Bool) : Text → List Text
  | [] => [[]]
  | c :: cs =>
    if p c then [] :: cutAt p cs
    else match cutAt p cs with
      | [] => [[c]]
      | t :: ts => (c :: t) :: ts

/-- Trim white space at both ends (R81). -/
def trim (t : Text) : Text := ((t.dropWhile isSpace).reverse.dropWhile isSpace).reverse

/-- Strip a comment: "any text from the first `//` onward" (R81). -/
def stripComment : Text → Text
  | [] => []
  | '/' :: '/' :: _ => []
  | c :: cs => c :: stripComment cs

/-- The lines of a source text (R80). -/
def sourceLines (src : Text) : List Text := cutAt (· == '\n') src

/-- The tokens of an instruction, empty tokens discarded (R86). -/
def tokens (t : Text) : List Text := (cutAt isSeparator t).filter (· ≠ [])

/-- The tokens of a text separated by white space only (R84, the `.word` line). -/
def words (t : Text) : List Text := (cutAt isSpace t).filter (· ≠ [])

/-- A label name: a non-empty token (R82; assumption log 15). -/
def isName (t : Text) : Bool := t ≠ [] && t.all fun c => !isSeparator c

/-- Split a line that begins with `label:` into the label and the trimmed remainder (R82); a line that does not is left
whole. -/
def splitLabel (line : Text) : Option Text × Text :=
  match line.span (· ≠ ':') with
  | (name, _ :: rest) => if isName (trim name) then (some (trim name), trim rest) else (none, line)
  | (_, []) => (none, line)

/-- The value of a decimal digit. -/
def decDigit (c : Char) : Option Nat :=
  if '0' ≤ c ∧ c ≤ '9' then some (c.toNat - '0'.toNat) else none

/-- The value of a hexadecimal digit. -/
def hexDigit (c : Char) : Option Nat :=
  if '0' ≤ c ∧ c ≤ '9' then some (c.toNat - '0'.toNat)
  else if 'a' ≤ c ∧ c ≤ 'f' then some (c.toNat - 'a'.toNat + 10)
  else if 'A' ≤ c ∧ c ≤ 'F' then some (c.toNat - 'A'.toNat + 10)
  else none

/-- The number that a text of digits continues, most significant digit first. -/
def digitsFrom (base : Nat) (digit : Char → Option Nat) : Nat → Text → Option Nat
  | n, [] => some n
  | n, c :: cs =>
    match digit c with
    | some d => digitsFrom base digit (n * base + d) cs
    | none => none

/-- A non-empty text of digits. -/
def number (base : Nat) (digit : Char → Option Nat) : Text → Option Nat
  | [] => none
  | c :: cs => digitsFrom base digit 0 (c :: cs)

/-- A numeric literal (R88, D20): an optional `-` and decimal digits, or `0x` or `0X` and hexadecimal digits; every other
spelling is no number. -/
def parseLiteral : Text → Option Int
  | '0' :: 'x' :: ds => (number 16 hexDigit ds).map Int.ofNat
  | '0' :: 'X' :: ds => (number 16 hexDigit ds).map Int.ofNat
  | '-' :: ds => (number 10 decDigit ds).map fun n => -(n : Int)
  | ds => (number 10 decDigit ds).map Int.ofNat

/-- A register token: exactly `r0` to `r15` (R87). -/
def parseReg : Text → Option Reg
  | ['r', '0'] => some 0
  | ['r', '1'] => some 1
  | ['r', '2'] => some 2
  | ['r', '3'] => some 3
  | ['r', '4'] => some 4
  | ['r', '5'] => some 5
  | ['r', '6'] => some 6
  | ['r', '7'] => some 7
  | ['r', '8'] => some 8
  | ['r', '9'] => some 9
  | ['r', '1', '0'] => some 10
  | ['r', '1', '1'] => some 11
  | ['r', '1', '2'] => some 12
  | ['r', '1', '3'] => some 13
  | ['r', '1', '4'] => some 14
  | ['r', '1', '5'] => some 15
  | _ => none

/-- A hexadecimal digit in upper case (R97). -/
def hexChar (n : Nat) : Char := if n < 10 then Char.ofNat ('0'.toNat + n) else Char.ofNat ('A'.toNat + n - 10)

/-- Four hexadecimal digits, most significant first (R97). -/
def hex4 (w : Word) : Text :=
  [hexChar (w.toNat / 4096 % 16), hexChar (w.toNat / 256 % 16), hexChar (w.toNat / 16 % 16), hexChar (w.toNat % 16)]

end Sys2Proof.Asm
end

