-- ==== Sys2Proof/Machine/Assembler.lean ====
section
/-! DEFINITION. The assembler (R80 to R97): pass 1 reads lines, labels and segments and raises no error; pass 2 encodes, and
any single failure fails the whole (R95). It is the toolchain that produces images, not hardware. -/

namespace Sys2Proof.Asm

/-! ### Pass 1: the parser (R80 to R85) -/

/-- The two segments (R80). -/
inductive Segment where
  | text
  | data
  deriving DecidableEq, Repr

/-- What occupies one address of the program: its instruction text and its source line, counted from 1. -/
structure ProgramItem where
  text : Text
  line : Nat
  deriving DecidableEq, Repr

/-- What occupies one address of the data: its literal token (none for a `.word` line that does not have exactly one),
the text it stands in, and its source line. -/
structure DataItem where
  literal : Option Text
  text : Text
  line : Nat
  deriving DecidableEq, Repr

/-- A label as pass 1 records it: relative to the start of its segment. -/
structure LabelDef where
  name : Text
  segment : Segment
  offset : Nat
  line : Nat
  deriving DecidableEq, Repr

/-- What pass 1 has read so far. -/
structure Parsed where
  segment : Segment
  program : List ProgramItem
  data : List DataItem
  labels : List LabelDef
  deriving DecidableEq, Repr

/-- Before the first line; the segment active then is `.text` (R81, D21). -/
def Parsed.start : Parsed := { segment := .text, program := [], data := [], labels := [] }

/-- The address the next item of the active segment will have, counted from 0 in each segment (R81). -/
def Parsed.here (p : Parsed) : Nat :=
  match p.segment with
  | .text => p.program.length
  | .data => p.data.length

/-- The data items of a line (R84): the one token of a `.word` line, or the literals between commas. -/
def dataItems (rest : Text) (line : Nat) : List DataItem :=
  match words rest with
  | ['.', 'w', 'o', 'r', 'd'] :: [tok] => [{ literal := some tok, text := rest, line := line }]
  | ['.', 'w', 'o', 'r', 'd'] :: _ => [{ literal := none, text := rest, line := line }]
  | _ => (cutAt (· == ',') rest).map fun t => { literal := some (trim t), text := trim t, line := line }

/-- Record a label against the current address; it consumes none (R82). -/
def Parsed.addLabel (p : Parsed) (name : Option Text) (line : Nat) : Parsed :=
  match name with
  | none => p
  | some n => { p with labels := p.labels ++ [{ name := n, segment := p.segment, offset := p.here, line := line }] }

/-- Record what follows the label; nothing consumes no address (R83, R84). -/
def Parsed.addRest (p : Parsed) (rest : Text) (line : Nat) : Parsed :=
  if rest = [] then p
  else match p.segment with
    | .text => { p with program := p.program ++ [{ text := rest, line := line }] }
    | .data => { p with data := p.data ++ dataItems rest line }

/-- One source line (R81). -/
def Parsed.addLine (p : Parsed) (line : Text) (n : Nat) : Parsed :=
  let l := trim (stripComment line)
  if l = [] then p
  else if l = ['.', 't', 'e', 'x', 't'] then { p with segment := .text }
  else if l = ['.', 'd', 'a', 't', 'a'] then { p with segment := .data }
  else (p.addLabel (splitLabel l).1 n).addRest (splitLabel l).2 n

/-- The lines from number `n` on. -/
def Parsed.addLines : Parsed → Nat → List Text → Parsed
  | p, _, [] => p
  | p, n, l :: ls => Parsed.addLines (p.addLine l n) (n + 1) ls

/-- Pass 1. -/
def parse (src : Text) : Parsed := Parsed.start.addLines 1 (sourceLines src)

/-- `dataBase`: the number of words in the program segment (R85). -/
def Parsed.dataBase (p : Parsed) : Nat := p.program.length

/-- The label table: every label with its absolute address, data labels promoted by `dataBase` (R85). -/
def Parsed.table (p : Parsed) : List (Text × Nat) :=
  p.labels.map fun d =>
    match d.segment with
    | .text => (d.name, d.offset)
    | .data => (d.name, p.dataBase + d.offset)

/-- The source line of every address (R85). -/
def Parsed.lineMap (p : Parsed) : List Nat := p.program.map (·.line) ++ p.data.map (·.line)

/-! ### Pass 2: the encoder (R86 to R95) -/

/-- Why an assembly fails (R95). -/
inductive Reason where
  | unknownMnemonic (token : Text)
  | wrongArgumentCount
  | invalidRegister (token : Text)
  | invalidImmediate (token : Text)
  | invalidInteger (token : Text)
  | undefinedLabel (token : Text)
  | outOfRange (value : Int)
  | duplicateLabel (name : Text)
  deriving DecidableEq, Repr

/-- A failure carries the address at which it occurred (R95). -/
structure Failure where
  reason : Reason
  address : Nat
  deriving DecidableEq, Repr

/-- The source line of a failure, "which the caller maps to a source line" (R95): the line of its address (R85). -/
def Failure.line (f : Failure) (p : Parsed) : Option Nat := p.lineMap[f.address]?

/-- The first label of that name. -/
def addressOf : List (Text × Nat) → Text → Option Nat
  | [], _ => none
  | (n, a) :: ls, t => if n = t then some a else addressOf ls t

/-- A register operand (R87). -/
def regOperand (address : Nat) (t : Text) : Except Failure Reg :=
  match parseReg t with
  | some r => .ok r
  | none => .error ⟨.invalidRegister t, address⟩

/-- A symbolic reference: the address of a label that must exist (R88). -/
def labelOperand (table : List (Text × Nat)) (address : Nat) (t : Text) : Except Failure Nat :=
  match addressOf table t with
  | some a => .ok a
  | none => .error ⟨.undefinedLabel t, address⟩

/-- A literal, or, when the token is no number, what `symbolic` makes of the label's address (R88). -/
def valueOperand (table : List (Text × Nat)) (address : Nat) (symbolic : Nat → Int) (t : Text) : Except Failure Int :=
  match parseLiteral t with
  | some v => .ok v
  | none => (labelOperand table address t).map symbolic

/-- A range check. -/
def ranged (fits : Int → Bool) (address : Nat) (v : Int) : Except Failure Int :=
  if fits v then .ok v else .error ⟨.outOfRange v, address⟩

/-- The offset of `ld` and `st`: a literal 0 to 15, never a label (R90, D22). -/
def imm4Operand (address : Nat) (t : Text) : Except Failure (BitVec 4) :=
  match parseLiteral t with
  | some v => (ranged fitsImm4 address v).map (BitVec.ofInt 4)
  | none => .error ⟨.invalidImmediate t, address⟩

/-- The offset of a branch: a literal as it is, a label relative to the branch itself; then masked to 8 bits (R91). -/
def offsetOperand (table : List (Text × Nat)) (address : Nat) (t : Text) : Except Failure (BitVec 8) := do
  let v ← valueOperand table address (fun a => (a : Int) - address) t
  return BitVec.ofInt 8 (← ranged fitsOffset address v)

/-- The target of `jal`: a label is masked to 12 bits before the check (R92). -/
def targetOperand (table : List (Text × Nat)) (address : Nat) (t : Text) : Except Failure (BitVec 12) := do
  let v ← valueOperand table address (fun a => (a : Int) % 4096) t
  return BitVec.ofInt 12 (← ranged fitsTarget address v)

/-- The operand of `ldi`: a literal or a label (R89). -/
def ldiOperand (table : List (Text × Nat)) (address : Nat) (t : Text) : Except Failure (BitVec 8) := do
  let v ← valueOperand table address (fun a => (a : Int)) t
  return BitVec.ofInt 8 (← ranged fitsLdi address v)

/-- `low L` and `high L`: a byte of the label's address (R88). -/
def byteOperand (table : List (Text × Nat)) (address : Nat) (selector t : Text) : Except Failure (BitVec 8) :=
  match selector with
  | ['l', 'o', 'w'] => (labelOperand table address t).map fun a => BitVec.ofNat 8 (a % 256)
  | ['h', 'i', 'g', 'h'] => (labelOperand table address t).map fun a => BitVec.ofNat 8 (a / 256 % 256)
  | _ => .error ⟨.wrongArgumentCount, address⟩

/-- Three registers (format R). -/
def threeRegs (make : Reg → Reg → Reg → Instr) (address : Nat) : List Text → Except Failure Instr
  | [a, b, c] => do return make (← regOperand address a) (← regOperand address b) (← regOperand address c)
  | _ => .error ⟨.wrongArgumentCount, address⟩

/-- Two registers and an offset (formats LD and ST). -/
def regsOffset (make : Reg → Reg → BitVec 4 → Instr) (address : Nat) : List Text → Except Failure Instr
  | [a, b, c] => do return make (← regOperand address a) (← regOperand address b) (← imm4Operand address c)
  | _ => .error ⟨.wrongArgumentCount, address⟩

/-- A register and a branch offset (format BZ_BN). -/
def regBranch (make : Reg → BitVec 8 → Instr) (table : List (Text × Nat)) (address : Nat) :
    List Text → Except Failure Instr
  | [a, b] => do return make (← regOperand address a) (← offsetOperand table address b)
  | _ => .error ⟨.wrongArgumentCount, address⟩

/-- `not` (format NOT). -/
def notOperands (address : Nat) : List Text → Except Failure Instr
  | [a, b] => do return .not (← regOperand address a) (← regOperand address b)
  | _ => .error ⟨.wrongArgumentCount, address⟩

/-- `ldi` (format LDI): two operand tokens, or three with `low` or `high` (R86, R89). -/
def ldiOperands (table : List (Text × Nat)) (address : Nat) : List Text → Except Failure Instr
  | [a, v] => do return .ldi (← regOperand address a) (← ldiOperand table address v)
  | [a, sel, l] => do return .ldi (← regOperand address a) (← byteOperand table address sel l)
  | _ => .error ⟨.wrongArgumentCount, address⟩

/-- `br` (format BR). -/
def brOperands (table : List (Text × Nat)) (address : Nat) : List Text → Except Failure Instr
  | [a] => do return .br (← offsetOperand table address a)
  | _ => .error ⟨.wrongArgumentCount, address⟩

/-- `jal` (format JAL). -/
def jalOperands (table : List (Text × Nat)) (address : Nat) : List Text → Except Failure Instr
  | [a] => do return .jal (← targetOperand table address a)
  | _ => .error ⟨.wrongArgumentCount, address⟩

/-- `jr` (format JR). -/
def jrOperands (address : Nat) : List Text → Except Failure Instr
  | [a] => do return .jr (← regOperand address a)
  | _ => .error ⟨.wrongArgumentCount, address⟩

/-- `quit` (format Q). -/
def quitOperands (address : Nat) : List Text → Except Failure Instr
  | [] => .ok .quit
  | _ => .error ⟨.wrongArgumentCount, address⟩

/-- An instruction from its mnemonic and its operand tokens (R86): the mnemonics in lower case only (D22). -/
def instrOf (table : List (Text × Nat)) (address : Nat) (mnemonic : Text) (args : List Text) : Except Failure Instr :=
  match mnemonic with
  | ['a', 'd', 'd'] => threeRegs .add address args
  | ['s', 'u', 'b'] => threeRegs .sub address args
  | ['a', 'n', 'd'] => threeRegs .and address args
  | ['o', 'r'] => threeRegs .or address args
  | ['n', 'o', 't'] => notOperands address args
  | ['s', 'h', 'l'] => threeRegs .shl address args
  | ['s', 'h', 'r'] => threeRegs .shr address args
  | ['l', 'd', 'i'] => ldiOperands table address args
  | ['l', 'd'] => regsOffset .ld address args
  | ['s', 't'] => regsOffset .st address args
  | ['b', 'r'] => brOperands table address args
  | ['b', 'z'] => regBranch .bz table address args
  | ['b', 'n'] => regBranch .bn table address args
  | ['j', 'a', 'l'] => jalOperands table address args
  | ['j', 'r'] => jrOperands address args
  | ['q', 'u', 'i', 't'] => quitOperands address args
  | _ => .error ⟨.unknownMnemonic mnemonic, address⟩

/-- The word of a token list: "an empty token list produces the all-zero word", for blank entries only (R93). -/
def encodeTokens (table : List (Text × Nat)) (address : Nat) : List Text → Except Failure Word
  | [] => .ok 0
  | m :: args => (instrOf table address m args).map encode

/-- The word of a program line. The all-zero word of an empty token list is "never produced for a non-empty program line" (U18):
a line of separators only has no mnemonic and fails (R86, R95, assumption log 15). -/
def encodeLine (table : List (Text × Nat)) (address : Nat) (line : Text) : Except Failure Word :=
  if tokens line = [] ∧ line ≠ [] then .error ⟨.unknownMnemonic line, address⟩
  else encodeTokens table address (tokens line)

/-- The word of a data literal (R94): -32768 to 65535, masked to 16 bits; a label is no data literal (D22). -/
def encodeData (address : Nat) (literal : Option Text) : Except Failure Word :=
  match literal with
  | none => .error ⟨.invalidInteger [], address⟩
  | some t =>
    match parseLiteral t with
    | some v => (ranged fitsData address v).map (BitVec.ofInt 16)
    | none => .error ⟨.invalidInteger t, address⟩

/-- Encode items at consecutive addresses; the first failure fails all (R95). -/
def encodeFrom {α : Type} (enc : Nat → α → Except Failure Word) : Nat → List α → Except Failure (List Word)
  | _, [] => .ok []
  | a, x :: xs => do
    let w ← enc a x
    let ws ← encodeFrom enc (a + 1) xs
    return w :: ws

/-- The first label that is defined although an earlier line has defined it, with the address of that second definition;
refused (U14, D22, assumption log 15). -/
def duplicateAfter : List Text → List (Text × Nat) → Option (Text × Nat)
  | _, [] => none
  | seen, (n, a) :: ls => if seen.elem n then some (n, a) else duplicateAfter (n :: seen) ls

/-- A program and its data, assembled: what pass 1 read, and the words. -/
structure Assembled where
  parsed : Parsed
  program : List Word
  data : List Word
  deriving DecidableEq, Repr

/-- The words of an image from address 0 up: program, then data (R50, R57). -/
def Assembled.words (a : Assembled) : List Word := a.program ++ a.data

/-- The assembler: both passes. -/
def assemble (src : Text) : Except Failure Assembled :=
  let p := parse src
  match duplicateAfter [] p.table with
  | some (n, a) => .error ⟨.duplicateLabel n, a⟩
  | none => do
    let program ← encodeFrom (fun a (x : ProgramItem) => encodeLine p.table a x.text) 0 p.program
    let data ← encodeFrom (fun a (x : DataItem) => encodeData a x.literal) p.dataBase p.data
    return { parsed := p, program := program, data := data }

/-- Words at consecutive addresses from `a` on, as an image. -/
def imageFrom : Nat → List Word → List (Word × Word)
  | _, [] => []
  | a, w :: ws => (BitVec.ofNat 16 a, w) :: imageFrom (a + 1) ws

/-- The image of an assembled program (R57). -/
def Assembled.image (a : Assembled) : List (Word × Word) := imageFrom 0 a.words

/-! ### The memory dump (R97) -/

/-- The label shown at an address, with its colon; of several the last defined (assumption log 15). -/
def labelPrefix (table : List (Text × Nat)) (a : Nat) : Text :=
  match (table.filter (·.2 = a)).getLast? with
  | some (n, _) => n ++ [':', ' ']
  | none => []

/-- One line of the dump, `@AAAA VVVV  // <optional label: ><source text>`. DESIGN CHOICE: white space inside the source text
stands as in the source, where the images of spec/95_test_vectors.md show runs of blanks as one (assumption log 15). -/
def dumpLine (table : List (Text × Nat)) (a : Nat) (w : Word) (text : Text) : Text :=
  '@' :: hex4 (BitVec.ofNat 16 a) ++ ' ' :: hex4 w ++ [' ', ' ', '/', '/', ' '] ++ labelPrefix table a ++ text

/-- The lines of consecutive addresses from `a` on. -/
def dumpFrom (table : List (Text × Nat)) : Nat → List Word → List Text → List Text
  | a, w :: ws, t :: ts => dumpLine table a w t :: dumpFrom table (a + 1) ws ts
  | _, [], _ => []
  | _, _ :: _, [] => []

/-- A segment of the dump: its marker and its lines, nothing for a segment without words (the images of
spec/95_test_vectors.md; assumption log 15). -/
def dumpSegment (marker : Text) (lines : List Text) : List Text := if lines = [] then [] else marker :: lines

/-- The dump of an assembled program: the program segment, then the data segment, each after its marker. -/
def Assembled.dump (a : Assembled) : List Text :=
  let p := a.parsed
  dumpSegment ['/', '/', ' ', '.', 't', 'e', 'x', 't'] (dumpFrom p.table 0 a.program (p.program.map (·.text))) ++
    dumpSegment ['/', '/', ' ', '.', 'd', 'a', 't', 'a'] (dumpFrom p.table p.dataBase a.data (p.data.map (·.text)))

end Sys2Proof.Asm
end

