-- ==== Sys2Proof/Machine/Engine.lean ====
section
/-! DEFINITION. The host's operations on the engine (R9): loading an image, a failed compile, `reset()`, `run()`, and
`compile` as the assembler followed by one of the first two. `step()` is Machine/Step.lean. -/

namespace Sys2Proof.Machine

/-- What `reset()` and every compile have in common (R191 to R193): registers zero, pc 0 and in range, no fault. -/
def State.restart (s : State) : State :=
  { s with regs := Vector.replicate 16 0, pc := Config.resetPc, pcOor := false, lastFault := none }

/-- `reset()` (R191): memory and the compiled flag are untouched; Running exactly if compiled. -/
def hostReset (s : State) : State :=
  { s.restart with runState := if s.compiled then .running else .halted }

/-- `load_image(M)` (R192): exactly the addresses of the image are present. -/
def loadImage (image : List (Word × Word)) (s : State) : State :=
  { s.restart with mem := Memory.ofImage image, compiled := true, runState := .running }

/-- `compile_failed()` (R193): the image is discarded, the engine is not compiled. -/
def compileFailed (s : State) : State :=
  { s.restart with mem := [], compiled := false, runState := .halted }

/-- At most `fuel` steps while the engine is Running and compiled, and how many there were (R107). -/
def runLoop : Nat → State → Host.Outcome (State × Nat) Fault Refusal
  | 0, s => .next (s, 0)
  | fuel + 1, s =>
    if s.enabled then
      match step s with
      | .next t =>
        match runLoop fuel t with
        | .next (u, n) => .next (u, n + 1)
        | .fault r => .fault r
        | .refused r => .refused r
      | .fault r => .fault r
      | .refused r => .refused r
    else .next (s, 0)

/-- What `run()` does after its loop of `n` steps has left `s` (R107): the cap fault if the engine is still Running. When
the last step that the cap allows halted the engine itself, the source admits both reports (D13, U7): `capAtHalt` draws one. -/
def afterLoop (capAtHalt : Bool) (s : State) (n : Nat) : State :=
  if s.enabled || (n == Config.maxSteps && capAtHalt) then s.raise (.stepCapReached s.pc) else s

/-- `run()` (R107), with the draw of the boundary case; on an engine that is not Running and compiled it does nothing
(R109). Its step counter is local to the invocation (R31). -/
def run (capAtHalt : Bool) (s : State) : Host.Outcome State Fault Refusal :=
  if s.enabled then
    match runLoop Config.maxSteps s with
    | .next (t, n) => .next (afterLoop capAtHalt t n)
    | .fault r => .fault r
    | .refused r => .refused r
  else .next s

/-- A compile request: assemble, then load the image, or discard everything (R57, R95, R177, R192, R193). -/
def compile (src : Asm.Text) (s : State) : Host.Outcome State Fault Refusal :=
  match Asm.assemble src with
  | .error _ => .next (compileFailed s)
  | .ok a => if a.words.length ≤ Config.addressSpace then .next (loadImage a.image s) else .refused .imageTooLarge

/-- The operations of the host, "each atomic with respect to the others" (R9). It has no other move (D23). -/
inductive HostOp where
  | compile (src : Asm.Text)
  | loadImage (image : List (Word × Word))
  | compileFailed
  | reset
  | step
  | run (capAtHalt : Bool)
  deriving DecidableEq, Repr

/-- The effect of a host operation. -/
def hostOp (op : HostOp) (s : State) : Host.Outcome State Fault Refusal :=
  match op with
  | .compile src => Sys2Proof.Machine.compile src s
  | .loadImage image => .next (Sys2Proof.Machine.loadImage image s)
  | .compileFailed => .next (Sys2Proof.Machine.compileFailed s)
  | .reset => .next (hostReset s)
  | .step => Sys2Proof.Machine.step s
  | .run capAtHalt => Sys2Proof.Machine.run capAtHalt s

end Sys2Proof.Machine
end

