-- ==== Sys2Proof/Machine/Report.lean ====
section
/-! DEFINITION. The step report (R106): an output of `step()`, not state. Its wording and the disassembled text are
rendering and stand outside the scope (R4, N9). -/

namespace Sys2Proof.Machine

/-- The effect of an executed instruction: "one of" these (R106). -/
inductive Effect where
  | regWritten (r : Reg) (v : Word)
  | memWritten (a : Word) (v : Word)
  | newPc (pc : Word)
  | halted
  deriving DecidableEq, Repr

/-- A step report: of an executed instruction, its address, raw word, decoded instruction and effect; of a faulting step,
the fault (R106). -/
inductive Report where
  | executed (address : Word) (word : Word) (instr : Instr) (effect : Effect)
  | faulted (fault : ExecFault)
  deriving DecidableEq, Repr

/-- The effect an instruction's report names, its values read in the state `t` that the instruction left. Of the two
effects of `jal` the report names one, which is open (assumption log 13). -/
def effectOf (i : Instr) (s t : State) : Effect :=
  match i with
  | .add rd _ _ | .sub rd _ _ | .and rd _ _ | .or rd _ _ | .not rd _ | .shl rd _ _ | .shr rd _ _ | .ldi rd _
  | .ld rd _ _ => .regWritten rd (t.reg rd)
  | .st value base imm4 => .memWritten (BitVec.ofNat 16 (effectiveAddress s base imm4)) (s.reg value)
  | .br _ | .bz _ _ | .bn _ _ | .jr _ => .newPc t.pc
  | .jal _ => if Config.jalReportsLink then .regWritten Config.link (t.reg Config.link) else .newPc t.pc
  | .quit => .halted

/-- The fault of an instruction that the engine executes in `s`, if it takes one: `EaOutOfRange` of `ld` and `st` is the
only one (R166). -/
def faultOf (i : Instr) (s : State) : Option ExecFault :=
  match i with
  | .ld _ base imm4 | .st _ base imm4 =>
    if 0xFFFF < effectiveAddress s base imm4 then some (.eaOutOfRange s.pc (effectiveAddress s base imm4)) else none
  | .add _ _ _ | .sub _ _ _ | .and _ _ _ | .or _ _ _ | .not _ _ | .shl _ _ _ | .shr _ _ _ | .ldi _ _
  | .br _ | .bz _ _ | .bn _ _ | .jal _ | .jr _ | .quit => none

/-- The report of the step taken in `s`: none when the engine is not Running and compiled (R109). -/
def report (s : State) : Option Report :=
  if s.enabled then
    match s.fetch with
    | none => some (.faulted (.pcOutOfRange s.pc))
    | some w =>
      match faultOf (decodeWord w) s with
      | some f => some (.faulted f)
      | none =>
        match exec (decodeWord w) s with
        | .next t => some (.executed s.pc w (decodeWord w) (effectOf (decodeWord w) s t))
        | .fault _ => none
        | .refused _ => none
  else none

end Sys2Proof.Machine
end

