-- ==== Sys2Proof/Safety.lean ====
section
/-! DEFINITION. The terms statements use: what a step may leave unchanged, the read and write table of R23, how a run ends
(R110), and the invariant of the machine. -/

namespace Sys2Proof.Machine

/-! ### Frames -/

/-- Every register reads as before. -/
def SameRegs (s t : State) : Prop := ∀ r : Reg, t.reg r = s.reg r

/-- Every register but one reads as before. -/
def SameRegsBut (rd : Reg) (s t : State) : Prop := ∀ r : Reg, r ≠ rd → t.reg r = s.reg r

/-- Every address of memory is present or absent as before, with the same word. -/
def SameMem (s t : State) : Prop := ∀ a : Word, t.lookup a = s.lookup a

/-- Every address of memory but one is as before. -/
def SameMemBut (b : Word) (s t : State) : Prop := ∀ a : Word, a ≠ b → t.lookup a = s.lookup a

/-- The control state other than the pc is as before: `run_state`, `compiled`, `last_fault`. -/
def SameControl (s t : State) : Prop :=
  t.runState = s.runState ∧ t.compiled = s.compiled ∧ t.lastFault = s.lastFault

/-- The pc and `pc_oor` are as before. -/
def SamePc (s t : State) : Prop := t.pc = s.pc ∧ t.pcOor = s.pcOor

/-- `SetPC(n)` has been done (R25): the pc is `n mod 2^16`, and `pc_oor` says whether `n` was outside 0 to 0xFFFF. -/
def PcSetTo (t : State) (n : Int) : Prop :=
  (t.pc.toNat : Int) = n % 65536 ∧ (t.pcOor = true ↔ n < 0 ∨ 65535 < n)

/-- The fault `f` has been taken in `s` and nothing else has happened (R167). -/
def FaultTaken (f : ExecFault) (s t : State) : Prop :=
  t.runState = .halted ∧ t.lastFault = some f ∧ SameRegs s t ∧ SamePc s t ∧ SameMem s t ∧ t.compiled = s.compiled

/-! ### The read and write table (R23) -/

/-- The registers an instruction reads. -/
def readsOf : Instr → List Reg
  | .add _ rs1 rs2 | .sub _ rs1 rs2 | .and _ rs1 rs2 | .or _ rs1 rs2 | .shl _ rs1 rs2 | .shr _ rs1 rs2 => [rs1, rs2]
  | .not _ rs1 => [rs1]
  | .ldi _ _ => []
  | .ld _ base _ => [base]
  | .st value base _ => [value, base]
  | .br _ => []
  | .bz test _ | .bn test _ => [test]
  | .jal _ => []
  | .jr reg => [reg]
  | .quit => []

/-- The registers an instruction writes. -/
def writesOf : Instr → List Reg
  | .add rd _ _ | .sub rd _ _ | .and rd _ _ | .or rd _ _ | .shl rd _ _ | .shr rd _ _ => [rd]
  | .not rd _ => [rd]
  | .ldi rd _ => [rd]
  | .ld rd _ _ => [rd]
  | .st _ _ _ => []
  | .br _ => []
  | .bz _ _ | .bn _ _ => []
  | .jal _ => [Config.link]
  | .jr _ => []
  | .quit => []

/-- The next pc of R148's table, an integer, for an instruction that takes no fault. -/
def nextPcOf (i : Instr) (s : State) : Int :=
  match i with
  | .add _ _ _ | .sub _ _ _ | .and _ _ _ | .or _ _ _ | .not _ _ | .shl _ _ _ | .shr _ _ _ | .ldi _ _ | .ld _ _ _
  | .st _ _ _ => (s.pc.toNat : Int) + 1
  | .br off8 => (s.pc.toNat : Int) + sint8 off8
  | .bz test off8 => if (s.reg test).toNat = 0 then (s.pc.toNat : Int) + sint8 off8 else (s.pc.toNat : Int) + 1
  | .bn test off8 => if 0x8000 ≤ (s.reg test).toNat then (s.pc.toNat : Int) + sint8 off8 else (s.pc.toNat : Int) + 1
  | .jal t12 => ((s.pc.toNat / 4096 * 4096 + t12.toNat : Nat) : Int)
  | .jr reg => ((s.reg reg).toNat : Int)
  | .quit => (s.pc.toNat : Int)

/-- The word whose four 4-bit fields, high to low, are these numbers (R61). -/
def wordOfFields (op a b c : Fin 16) : Word :=
  BitVec.ofNat 16 (op.val * 4096 + a.val * 256 + b.val * 16 + c.val)

/-! ### The end of a run (R110) -/

/-- The engine is Halted by a `quit`: the normal end, with no fault recorded. -/
def NormalEnd (s : State) : Prop := s.runState = .halted ∧ s.lastFault = none

/-- After `n` steps from `s` the machine is in `t`. -/
def AfterSteps (n : Nat) (s t : State) : Prop := Host.Core.run Sys2Proof.core n s = .next t

/-- How a run has ended (R110): Halted by a `quit` that stands at the pc, with no fault; or by one of the three faults, each
recorded with the pc at which the engine stands. -/
def RunEnded (t : State) : Prop :=
  t.runState = .halted ∧
    ((NormalEnd t ∧ ∃ w, t.fetch = some w ∧ decodeWord w = .quit) ∨
      (t.lastFault = some (.pcOutOfRange t.pc) ∧ t.fetch = none) ∨
      (∃ ea, t.lastFault = some (.eaOutOfRange t.pc ea) ∧ 0xFFFF < ea) ∨
      t.lastFault = some (.stepCapReached t.pc))

/-! ### The invariant -/

/-- A recorded fault is the reason the engine stands where it stands (R29, R160, R168): it was taken at the pc; a fetch
fault where nothing can be fetched; an address fault for an address just past the space (R46). Code 3 is never recorded
(R163). -/
def FaultExplained (s : State) : Prop :=
  match s.lastFault with
  | none => True
  | some (.pcOutOfRange pc) => pc = s.pc ∧ s.fetch = none
  | some (.stepCapReached pc) => pc = s.pc
  | some (.unknownOpcode _) => False
  | some (.eaOutOfRange pc ea) => pc = s.pc ∧ 0x10000 ≤ ea ∧ ea ≤ 0x1000E

/-- The invariant of the core: what holds of every state a run from power-on reaches. -/
structure Inv (s : State) : Prop where
  /-- The memory is in canonical form. -/
  memory : s.mem.wf = true
  /-- "`run_state = Running` implies `compiled = true`" (R28). -/
  running_compiled : s.runState = .running → s.compiled = true
  /-- A fault halts, and only a reset or a compile leaves Halted (R27, R29, R169). -/
  running_no_fault : s.runState = .running → s.lastFault = none
  /-- A recorded fault explains the stop. -/
  fault : FaultExplained s
  /-- An engine that is not compiled stands exactly as at power-on (R190, R193). -/
  uncompiled : s.compiled = false → s = State.reset
  /-- "between -128 and -1, or between 0x10000 and 0x1007E" (R25): the only pcs that can be out of range. -/
  out_of_range : s.pcOor = true → s.pc.toNat ≤ 0x7E ∨ 0xFF80 ≤ s.pc.toNat

end Sys2Proof.Machine
end

