-- ==== Sys2Proof/Certificates/Slice0/Obligations.lean ====
section
/-! DEFINITION. The statements for the provers. Each docstring names the rule it formalises; where a clause rests on a decision
of the spec (D<n> of spec/92_eei_decisions.md) or on a choice of the model, the docstring says so and names the log entry. The
`pc_oor` half of `SetPC` (`PcSetTo`) is decision D3 (log 5) wherever it stands; `last_fault` (`FaultTaken`) is D11 and D12
(log 9). -/

open Sys2Proof Sys2Proof.Machine

/-! ### Encoding -/

/-- R77: `Decode` of the packed word returns the same field values, for every instruction and every choice of field values. -/
def Obligations.DecodeOfEncodeIsIdentity : Prop := ∀ i : Instr, decodeWord (encode i) = i

/-- R75, R62 (ignored bits: D7, log 3): encoding what a word decodes to gives the word with its ignored bits cleared, so a word
with other values there decodes as the canonical word, and the canonical words are exactly those that encode what they decode
to. -/
def Obligations.EncodeOfDecodeClearsIgnoredBits : Prop :=
  ∀ w : Word, encode (decodeWord w) = w &&& significantMask w ∧
    decodeWord w = decodeWord (w &&& significantMask w) ∧
    (canonicalWord w = true ↔ encode (decodeWord w) = w)

/-- R75: the whole decode table, for every word, given by its four 4-bit fields as a number; a field shown as 0 in R62 may
hold anything (D7, log 3); the grouped opcodes are by position (D6, log 4). -/
def Obligations.DecodeTableForEveryWord : Prop :=
  ∀ a b c : Fin 16,
    decodeWord (wordOfFields 0x0 a b c) = .add a b c ∧
    decodeWord (wordOfFields 0x1 a b c) = .sub a b c ∧
    decodeWord (wordOfFields 0x2 a b c) = .and a b c ∧
    decodeWord (wordOfFields 0x3 a b c) = .or a b c ∧
    decodeWord (wordOfFields 0x4 a b c) = .not a b ∧
    decodeWord (wordOfFields 0x5 a b c) = .shl a b c ∧
    decodeWord (wordOfFields 0x6 a b c) = .shr a b c ∧
    decodeWord (wordOfFields 0x7 a b c) = .ldi a (BitVec.ofNat 8 (b.val * 16 + c.val)) ∧
    decodeWord (wordOfFields 0x8 a b c) = .ld a c (BitVec.ofNat 4 b.val) ∧
    decodeWord (wordOfFields 0x9 a b c) = .st b c (BitVec.ofNat 4 a.val) ∧
    decodeWord (wordOfFields 0xA a b c) = .br (BitVec.ofNat 8 (a.val * 16 + b.val)) ∧
    decodeWord (wordOfFields 0xB a b c) = .bz c (BitVec.ofNat 8 (a.val * 16 + b.val)) ∧
    decodeWord (wordOfFields 0xC a b c) = .bn c (BitVec.ofNat 8 (a.val * 16 + b.val)) ∧
    decodeWord (wordOfFields 0xD a b c) = .jal (BitVec.ofNat 12 (a.val * 256 + b.val * 16 + c.val)) ∧
    decodeWord (wordOfFields 0xE a b c) = .jr b ∧
    decodeWord (wordOfFields 0xF a b c) = .quit

/-- R65, R66, R67, R70: the packing formulas of `ldi`, `ld`, `st` and `jal`, and that the decoder reads those fields back. -/
def Obligations.PackingFormulasOfImmediateFormats : Prop :=
  ∀ (r q : Reg) (imm4 : BitVec 4) (imm8 : BitVec 8) (t12 : BitVec 12),
    (encode (.ldi r imm8)).toNat = 0x7 * 4096 + r.val * 256 + imm8.toNat ∧
    (encode (.ld r q imm4)).toNat = 0x8 * 4096 + r.val * 256 + imm4.toNat * 16 + q.val ∧
    (encode (.st r q imm4)).toNat = 0x9 * 4096 + imm4.toNat * 256 + r.val * 16 + q.val ∧
    (encode (.jal t12)).toNat = 0xD * 4096 + t12.toNat ∧
    decodeWord (BitVec.ofNat 16 (0x7 * 4096 + r.val * 256 + imm8.toNat)) = .ldi r imm8 ∧
    decodeWord (BitVec.ofNat 16 (0x8 * 4096 + r.val * 256 + imm4.toNat * 16 + q.val)) = .ld r q imm4 ∧
    decodeWord (BitVec.ofNat 16 (0x9 * 4096 + imm4.toNat * 256 + r.val * 16 + q.val)) = .st r q imm4 ∧
    decodeWord (BitVec.ofNat 16 (0xD * 4096 + t12.toNat)) = .jal t12

/-- The source's two example words (S1, S2) and a word of each other format, from spec/95_test_vectors.md 2.1, 2.2, 2.5 and 2.7.
That 0x0312 is `add` and 0xBFEF is `bz` rests on D6 (log 4), that 0xEABC is `jr` and 0xF123 is `quit` on D7 (log 3). -/
def Obligations.ExampleWordsDecode : Prop :=
  decodeWord 0x70FF = .ldi 0 0xFF ∧ decodeWord 0x7080 = .ldi 0 0x80 ∧ decodeWord 0x0312 = .add 3 1 2 ∧
    decodeWord 0x4310 = .not 3 1 ∧ decodeWord 0x83F4 = .ld 3 4 15 ∧ decodeWord 0x9334 = .st 3 4 3 ∧
    decodeWord 0xAFD0 = .br 0xFD ∧ decodeWord 0xBFEF = .bz 15 0xFE ∧ decodeWord 0xD234 = .jal 0x234 ∧
    decodeWord 0xEABC = .jr 11 ∧ decodeWord 0xF123 = .quit

/-! ### The step -/

/-- R100: a Running, compiled engine whose pc is in range and names a present word executes exactly what the word decodes to;
step adds nothing around exec. Every instruction is well formed by its type. -/
def Obligations.StepRunsTheDecodedInstruction : Prop :=
  ∀ (s : State) (w : Word), s.runState = .running → s.compiled = true → s.pcOor = false → s.lookup s.pc = some w →
    step s = exec (decodeWord w) s

/-- R101, R161, R166: the fetch fault is taken before anything is decoded or written, when `pc_oor` is set whatever the memory
holds (D3, log 5), or when the address is absent; an absent address is never fetched as the word 0. -/
def Obligations.FetchOfAbsentOrOutOfRangeFaults : Prop :=
  ∀ s : State, s.runState = .running → s.compiled = true → (s.pcOor = true ∨ s.lookup s.pc = none) →
    ∃ t, step s = .next t ∧ FaultTaken (.pcOutOfRange s.pc) s t

/-- R109 (D8, log 6): an engine that is Halted or not compiled is left as it is, by any number of steps and by `run()`. -/
def Obligations.NotRunningIsTerminal : Prop :=
  ∀ (s : State) (n : Nat) (d : Bool), (s.runState = .halted ∨ s.compiled = false) →
    AfterSteps n s s ∧ run d s = .next s

/-- Every step and every instruction ends in a next state: nothing stops outside the state and nothing is refused (R76). A fault is
an effect of the machine, so a next state (R160, R167; log 9); that a step of a Halted or uncompiled engine answers one is
D8 (R109, log 6). -/
def Obligations.EveryStepAnswersANextState : Prop :=
  (∀ s : State, ∃ t, step s = .next t) ∧ ∀ (i : Instr) (s : State), ∃ t, exec i s = .next t

/-! ### Arithmetic, logic, shifts, ldi -/

/-- R120, with its frame: `x[rd] <- (x[rs1] + x[rs2]) mod 2^16; SetPC(pc + 1)`. -/
def Obligations.AddWritesTheSumModulo : Prop :=
  ∀ (rd rs1 rs2 : Reg) (s : State), ∃ t, exec (.add rd rs1 rs2) s = .next t ∧
    (t.reg rd).toNat = ((s.reg rs1).toNat + (s.reg rs2).toNat) % 65536 ∧
    SameRegsBut rd s t ∧ PcSetTo t ((s.pc.toNat : Int) + 1) ∧ SameMem s t ∧ SameControl s t

/-- R121 (the subtrahend is `rs2`: D17, log 10), with its frame. -/
def Obligations.SubWritesTheDifferenceModulo : Prop :=
  ∀ (rd rs1 rs2 : Reg) (s : State), ∃ t, exec (.sub rd rs1 rs2) s = .next t ∧
    ((t.reg rd).toNat : Int) = (((s.reg rs1).toNat : Int) - ((s.reg rs2).toNat : Int)) % 65536 ∧
    SameRegsBut rd s t ∧ PcSetTo t ((s.pc.toNat : Int) + 1) ∧ SameMem s t ∧ SameControl s t

/-- R122 and R123, bit by bit, with their frame. -/
def Obligations.AndOrWriteTheBitwiseResult : Prop :=
  ∀ (rd rs1 rs2 : Reg) (s : State),
    (∃ t, exec (.and rd rs1 rs2) s = .next t ∧
      (∀ k : Fin 16, (t.reg rd)[k] = ((s.reg rs1)[k] && (s.reg rs2)[k])) ∧
      SameRegsBut rd s t ∧ PcSetTo t ((s.pc.toNat : Int) + 1) ∧ SameMem s t ∧ SameControl s t) ∧
    (∃ t, exec (.or rd rs1 rs2) s = .next t ∧
      (∀ k : Fin 16, (t.reg rd)[k] = ((s.reg rs1)[k] || (s.reg rs2)[k])) ∧
      SameRegsBut rd s t ∧ PcSetTo t ((s.pc.toNat : Int) + 1) ∧ SameMem s t ∧ SameControl s t)

/-- R124: one's complement, `0xFFFF - x[rs1]`, with its frame. -/
def Obligations.NotWritesTheComplement : Prop :=
  ∀ (rd rs1 : Reg) (s : State), ∃ t, exec (.not rd rs1) s = .next t ∧
    (t.reg rd).toNat = 0xFFFF - (s.reg rs1).toNat ∧
    SameRegsBut rd s t ∧ PcSetTo t ((s.pc.toNat : Int) + 1) ∧ SameMem s t ∧ SameControl s t

/-- R125 (roles of the operands: D17, log 10), whichever reading of `SHAMT_BITS` the hardware has (D5, log 2), with its frame:
`n = x[rs2] mod 2^SHAMT_BITS; x[rd] <- (x[rs1] * 2^n) mod 2^16`. -/
def Obligations.ShlWritesTheShiftedValue : Prop :=
  ∀ (rd rs1 rs2 : Reg) (s : State), ∃ t, exec (.shl rd rs1 rs2) s = .next t ∧
    (t.reg rd).toNat =
      ((s.reg rs1).toNat * 2 ^ ((s.reg rs2).toNat % 2 ^ Config.shamtBits.bits)) % 65536 ∧
    SameRegsBut rd s t ∧ PcSetTo t ((s.pc.toNat : Int) + 1) ∧ SameMem s t ∧ SameControl s t

/-- R126 (roles of the operands: D17, log 10), whichever reading of `SHAMT_BITS` the hardware has (D5, log 2), with its frame:
a logical shift, `floor(x[rs1] / 2^n)`. -/
def Obligations.ShrWritesTheShiftedValue : Prop :=
  ∀ (rd rs1 rs2 : Reg) (s : State), ∃ t, exec (.shr rd rs1 rs2) s = .next t ∧
    (t.reg rd).toNat = (s.reg rs1).toNat / 2 ^ ((s.reg rs2).toNat % 2 ^ Config.shamtBits.bits) ∧
    SameRegsBut rd s t ∧ PcSetTo t ((s.pc.toNat : Int) + 1) ∧ SameMem s t ∧ SameControl s t

/-- R128: the count under each of the three readings of `SHAMT_BITS` (an open parameter, D5, log 2), and that a count of 16 or
more gives 0 in both directions. -/
def Obligations.ShiftsUnderEachReading : Prop :=
  ∀ (bits : Config.ShamtBits) (rd rs1 rs2 : Reg) (s : State) (n : Nat), (s.reg rs2).toNat % 2 ^ bits.bits = n →
    ((shlWith bits rd rs1 rs2 s).reg rd).toNat = ((s.reg rs1).toNat * 2 ^ n) % 65536 ∧
    ((shrWith bits rd rs1 rs2 s).reg rd).toNat = (s.reg rs1).toNat / 2 ^ n ∧
    (16 ≤ n → (shlWith bits rd rs1 rs2 s).reg rd = 0 ∧ (shrWith bits rd rs1 rs2 s).reg rd = 0)

/-- R130, whichever reading of `LDI_EXT` the hardware has (D4, log 1), with its frame: all 16 bits of `rd` are written. -/
def Obligations.LdiWritesTheWidenedImmediate : Prop :=
  ∀ (rd : Reg) (imm8 : BitVec 8) (s : State), ∃ t, exec (.ldi rd imm8) s = .next t ∧
    (t.reg rd).toNat = (if imm8.toNat < 128 ∨ Config.ldiExt = .zero then imm8.toNat else imm8.toNat + 0xFF00) ∧
    SameRegsBut rd s t ∧ PcSetTo t ((s.pc.toNat : Int) + 1) ∧ SameMem s t ∧ SameControl s t

/-- R6, last column: `ldi` immediates 0x00 to 0x7F give the same result under both readings of `LDI_EXT`, and shift amounts 0 to
15 under all three of `SHAMT_BITS`; 0x80 and 16 are the first that do not (logs 1, 2). -/
def Obligations.OpenParametersMatterOnlyBeyondTheirBound : Prop :=
  (∀ (e e' : Config.LdiExt) (rd : Reg) (imm8 : BitVec 8) (s : State), imm8.toNat < 0x80 →
    ldiWith e rd imm8 s = ldiWith e' rd imm8 s) ∧
  (∀ (b b' : Config.ShamtBits) (rd rs1 rs2 : Reg) (s : State), (s.reg rs2).toNat < 16 →
    shlWith b rd rs1 rs2 s = shlWith b' rd rs1 rs2 s ∧ shrWith b rd rs1 rs2 s = shrWith b' rd rs1 rs2 s) ∧
  (∀ imm8 : BitVec 8, 0x80 ≤ imm8.toNat → ldiValue .zero imm8 ≠ ldiValue .sign imm8) ∧
  shiftCount .four 16 ≠ shiftCount .five 16 ∧ shiftCount .five 32 ≠ shiftCount .sixteen 32

/-! ### Load and store -/

/-- R136 and R43, with the frame, for every effective address of the space: the word there, or 0 when the address is absent,
which is no fault and leaves it absent. -/
def Obligations.LdReadsTheWordOrZero : Prop :=
  ∀ (rd base : Reg) (imm4 : BitVec 4) (s : State) (a : Word), (s.reg base).toNat + imm4.toNat = a.toNat →
    ∃ t, exec (.ld rd base imm4) s = .next t ∧
      (∀ w, s.lookup a = some w → t.reg rd = w) ∧ (s.lookup a = none → t.reg rd = 0) ∧
      SameRegsBut rd s t ∧ PcSetTo t ((s.pc.toNat : Int) + 1) ∧ SameMem s t ∧ SameControl s t

/-- R137 and R45, with the frame, for every effective address of the space: the word is stored there, the address is present
after it, every other address is as before. -/
def Obligations.StWritesTheWord : Prop :=
  ∀ (value base : Reg) (imm4 : BitVec 4) (s : State) (a : Word), (s.reg base).toNat + imm4.toNat = a.toNat →
    ∃ t, exec (.st value base imm4) s = .next t ∧
      t.lookup a = some (s.reg value) ∧ t.present a = true ∧ SameMemBut a s t ∧
      SameRegs s t ∧ PcSetTo t ((s.pc.toNat : Int) + 1) ∧ SameControl s t

/-- R46, R135, R164 (D2, log 5): an effective address above 0xFFFF is not wrapped; `ld` and `st` take `EaOutOfRange` and write
nothing. -/
def Obligations.AddressAboveTheSpaceFaults : Prop :=
  ∀ (r base : Reg) (imm4 : BitVec 4) (s : State) (ea : Nat), (s.reg base).toNat + imm4.toNat = ea → 0xFFFF < ea →
    (∃ t, exec (.ld r base imm4) s = .next t ∧ FaultTaken (.eaOutOfRange s.pc ea) s t) ∧
    (∃ t, exec (.st r base imm4) s = .next t ∧ FaultTaken (.eaOutOfRange s.pc ea) s t)

/-- R52: a `ld` returns the word of an earlier `st` to the same address, through any states between that leave that address of
memory alone. -/
def Obligations.LoadReturnsTheStoredWord : Prop :=
  ∀ (value base rd base' : Reg) (imm4 imm4' : BitVec 4) (s : State) (a : Word),
    (s.reg base).toNat + imm4.toNat = a.toNat →
    ∃ t, exec (.st value base imm4) s = .next t ∧
      ∀ u : State, u.lookup a = t.lookup a → (u.reg base').toNat + imm4'.toNat = a.toNat →
        ∃ v, exec (.ld rd base' imm4') u = .next v ∧ v.reg rd = s.reg value

/-- R202: "A store to an address is seen by the next fetch of that address": whatever word stood there, and if none did, a
Running engine that comes to the address, with that address of memory as the store left it and whatever else has been stored,
executes the stored word. -/
def Obligations.StoredWordIsWhatTheNextFetchExecutes : Prop :=
  ∀ (value base : Reg) (imm4 : BitVec 4) (s : State) (a : Word), (s.reg base).toNat + imm4.toNat = a.toNat →
    ∃ t, exec (.st value base imm4) s = .next t ∧
      ∀ u : State, u.lookup a = t.lookup a → u.pc = a → u.pcOor = false → u.enabled = true →
        step u = exec (decodeWord (s.reg value)) u

/-! ### Control transfer -/

/-- R140, R145, with the frame: always taken, relative to the branch itself. -/
def Obligations.BrGoesToItsTarget : Prop :=
  ∀ (off8 : BitVec 8) (s : State), ∃ t, exec (.br off8) s = .next t ∧
    PcSetTo t ((s.pc.toNat : Int) + (if off8.toNat < 128 then (off8.toNat : Int) else (off8.toNat : Int) - 256)) ∧
    SameRegs s t ∧ SameMem s t ∧ SameControl s t

/-- R141, R142, R145, with the frame: `bz` branches exactly when the tested register is zero, `bn` exactly when it is 0x8000 or
more, and each falls through otherwise. -/
def Obligations.BzBnBranchExactlyOnTheirCondition : Prop :=
  ∀ (test : Reg) (off8 : BitVec 8) (s : State) (target : Int),
    target = (s.pc.toNat : Int) + (if off8.toNat < 128 then (off8.toNat : Int) else (off8.toNat : Int) - 256) →
    (∃ t, exec (.bz test off8) s = .next t ∧
      PcSetTo t (if (s.reg test).toNat = 0 then target else (s.pc.toNat : Int) + 1) ∧
      SameRegs s t ∧ SameMem s t ∧ SameControl s t) ∧
    (∃ t, exec (.bn test off8) s = .next t ∧
      PcSetTo t (if 0x8000 ≤ (s.reg test).toNat then target else (s.pc.toNat : Int) + 1) ∧
      SameRegs s t ∧ SameMem s t ∧ SameControl s t)

/-- R143, with the frame: register 15 gets `(pc + 1) mod 2^16`, the pc keeps its top four bits and takes `t12` below them, both
from the pc of the `jal`; `pc_oor` is cleared. -/
def Obligations.JalLinksAndJumpsInItsBank : Prop :=
  ∀ (t12 : BitVec 12) (s : State), ∃ t, exec (.jal t12) s = .next t ∧
    (t.reg 15).toNat = (s.pc.toNat + 1) % 65536 ∧
    t.pc.toNat = s.pc.toNat / 4096 * 4096 + t12.toNat ∧ t.pcOor = false ∧
    SameRegsBut 15 s t ∧ SameMem s t ∧ SameControl s t

/-- R144, with the frame: any register, all 16 bits, absolute; `pc_oor` is cleared and no register is written. -/
def Obligations.JrGoesToTheRegister : Prop :=
  ∀ (reg : Reg) (s : State), ∃ t, exec (.jr reg) s = .next t ∧
    t.pc = s.reg reg ∧ t.pcOor = false ∧ SameRegs s t ∧ SameMem s t ∧ SameControl s t

/-- R146 (S7): a `jal` followed by `jr r15` returns to the instruction after the `jal`, for any callee that leaves register 15
as the `jal` wrote it. -/
def Obligations.JrReturnsAfterJal : Prop :=
  ∀ (t12 : BitVec 12) (s : State), ∃ t, exec (.jal t12) s = .next t ∧
    ∀ u : State, u.reg 15 = t.reg 15 →
      ∃ v, exec (.jr 15) u = .next v ∧ v.pc.toNat = (s.pc.toNat + 1) % 65536 ∧ v.pcOor = false

/-- R150: `quit` halts without moving the pc, and nothing else changes. -/
def Obligations.QuitHaltsInPlace : Prop :=
  ∀ s : State, ∃ t, exec .quit s = .next t ∧
    t.runState = .halted ∧ SamePc s t ∧ SameRegs s t ∧ SameMem s t ∧
    t.compiled = s.compiled ∧ t.lastFault = s.lastFault

/-! ### Rules over all instructions -/

/-- R23, the "Writes" column: no instruction changes a register that its row does not name. -/
def Obligations.OnlyTheWrittenRegistersChange : Prop :=
  ∀ (i : Instr) (s t : State), exec i s = .next t → ∀ r : Reg, r ∉ writesOf i → t.reg r = s.reg r

/-- R23, the "Reads" column (reads before writes: D18, log 10): two states that differ only in registers an instruction does not
read give the same pc, control state and memory, and the same values of the registers it writes, unless it takes a fault, which
it then takes in both. -/
def Obligations.UnreadRegistersDoNotMatter : Prop :=
  ∀ (i : Instr) (s s' t t' : State), { s' with regs := s.regs } = s → (∀ r ∈ readsOf i, s'.reg r = s.reg r) →
    exec i s = .next t → exec i s' = .next t' →
    { t' with regs := t.regs } = t ∧ faultOf i s' = faultOf i s ∧
      (faultOf i s = none → ∀ r ∈ writesOf i, t'.reg r = t.reg r)

/-- R148's table: the next pc of every instruction, kept modulo 2^16 (D3, log 5), and that a faulting step leaves it, among them an
`ld` or `st` whose address is above the space (D2, log 5). -/
def Obligations.NextPcOfEveryInstruction : Prop :=
  (∀ (i : Instr) (s t : State), exec i s = .next t →
    (faultOf i s = none → (t.pc.toNat : Int) = nextPcOf i s % 65536) ∧ (faultOf i s ≠ none → t.pc = s.pc)) ∧
  (∀ s t : State, step s = .next t → s.fetch = none → t.pc = s.pc)

/-- R49: "Only `st` performs writes" (R45): every other instruction leaves every address of memory as it is, present or
absent. -/
def Obligations.OnlyStChangesMemory : Prop :=
  ∀ (i : Instr) (s t : State), exec i s = .next t → (∀ value base imm4, i ≠ .st value base imm4) → SameMem s t

/-- R168: whenever a step records a fault, that fault is all that has happened: the state is as before the step but for
`run_state` and `last_fault`. -/
def Obligations.FaultsArePrecise : Prop :=
  ∀ s t : State, step s = .next t → t.lastFault ≠ s.lastFault → ∃ f, FaultTaken f s t

/-- R25 (D3, log 5): the only steps that set `pc_oor` are the default advance from 0xFFFF and a taken `br`, `bz` or `bn` whose
target leaves 0 to 0xFFFF. -/
def Obligations.OnlyAdvanceAndBranchesLeaveTheAddressRange : Prop :=
  ∀ (i : Instr) (s t : State), exec i s = .next t → s.pcOor = false → t.pcOor = true →
    (nextPcOf i s = 0x10000 ∧ s.pc = 0xFFFF) ∨
    (((∃ o, i = .br o) ∨ (∃ r o, i = .bz r o) ∨ (∃ r o, i = .bn r o)) ∧
      ((-128 ≤ nextPcOf i s ∧ nextPcOf i s ≤ -1) ∨ (0x10000 ≤ nextPcOf i s ∧ nextPcOf i s ≤ 0x1007E)))

/-! ### Rules over all host operations -/

/-- R27: the transitions of `run_state`, all of them: a compile enters Running exactly when it succeeds, else Halted; `reset()`
enters Running exactly when compiled, else Halted; a step takes a Running engine to Halted only by a `quit` or by a fault, and
both do; a `run()` always ends Halted; Halted is left by nothing else; no instruction reads `run_state`, and without a fault
only `quit` writes it. -/
def Obligations.RunStateTransitions : Prop :=
  (∀ (src : Asm.Text) (s t : State), hostOp (.compile src) s = .next t →
    (t.runState = .running ↔ ∃ a, Asm.assemble src = .ok a)) ∧
  (∀ (image : List (Word × Word)) (s t : State), hostOp (.loadImage image) s = .next t → t.runState = .running) ∧
  (∀ s t : State, hostOp .reset s = .next t → (t.runState = .running ↔ s.compiled = true)) ∧
  (∀ s t : State, hostOp .compileFailed s = .next t → t.runState = .halted) ∧
  (∀ s t : State, hostOp .step s = .next t → s.enabled = true →
    (t.runState = .halted ↔ (∃ w, s.fetch = some w ∧ decodeWord w = .quit) ∨ ∃ f, FaultTaken f s t)) ∧
  (∀ (s t : State) (d : Bool), (hostOp .step s = .next t ∨ hostOp (.run d) s = .next t) → s.runState = .halted →
    t.runState = .halted) ∧
  (∀ (s t : State) (d : Bool), hostOp (.run d) s = .next t → s.enabled = true → t.runState = .halted) ∧
  (∀ (i : Instr) (s t : State) (r : RunState), exec i s = .next t →
    (∃ t', exec i { s with runState := r } = .next t' ∧ { t' with runState := t.runState } = t) ∧
    (i ≠ .quit → faultOf i s = none → t.runState = s.runState))

/-- R28, R29 (D12, log 9): steps and runs never change `compiled` and never clear a recorded fault; `reset()` keeps `compiled`;
`reset()` and every compile clear the fault; a compile sets `compiled` to its success. -/
def Obligations.CompiledFlagAndLastFaultAcrossOperations : Prop :=
  (∀ (s t : State) (d : Bool), (hostOp .step s = .next t ∨ hostOp (.run d) s = .next t) →
    t.compiled = s.compiled ∧ (s.lastFault ≠ none → t.lastFault ≠ none)) ∧
  (∀ s t : State, hostOp .reset s = .next t → t.compiled = s.compiled ∧ t.lastFault = none) ∧
  (∀ (image : List (Word × Word)) (s t : State), hostOp (.loadImage image) s = .next t →
    t.compiled = true ∧ t.lastFault = none) ∧
  (∀ s t : State, hostOp .compileFailed s = .next t → t.compiled = false ∧ t.lastFault = none)

/-- R42: a step, a `run()` and a `reset()` never make a present address absent. -/
def Obligations.PresentAddressesStayPresent : Prop :=
  ∀ (s t : State) (d : Bool), (hostOp .step s = .next t ∨ hostOp (.run d) s = .next t ∨ hostOp .reset s = .next t) →
    ∀ a : Word, s.present a = true → t.present a = true

/-- R191, R34: `reset()` zeroes the registers and the pc, is Running exactly if compiled, and keeps memory with everything the
program stored; that it clears `last_fault` is D12 (log 9). -/
def Obligations.ResetKeepsMemoryAndZeroesTheRest : Prop :=
  ∀ s : State, ∃ t, hostOp .reset s = .next t ∧
    (∀ r : Reg, t.reg r = 0) ∧ t.pc = 0 ∧ t.pcOor = false ∧ t.lastFault = none ∧
    (t.runState = .running ↔ s.compiled = true) ∧ t.compiled = s.compiled ∧ SameMem s t

/-- R192, R34: after loading an image (no address named twice) exactly its addresses are present, each with its word; registers
and pc are zero and the engine is Running, whatever it was doing. -/
def Obligations.LoadImageReplacesEverything : Prop :=
  ∀ (image : List (Word × Word)) (s : State), image.Pairwise (fun p q => p.1 ≠ q.1) →
    ∃ t, hostOp (.loadImage image) s = .next t ∧
      (∀ a w, t.lookup a = some w ↔ (a, w) ∈ image) ∧
      (∀ r : Reg, t.reg r = 0) ∧ t.pc = 0 ∧ t.pcOor = false ∧ t.lastFault = none ∧
      t.runState = .running ∧ t.compiled = true

/-- R190, R193, R34 (D9, D10, log 11): the state at power-on, and that a failed compile leaves exactly that state. -/
def Obligations.PowerOnAndFailedCompile : Prop :=
  (∀ r : Reg, State.reset.reg r = 0) ∧ State.reset.pc = 0 ∧ State.reset.pcOor = false ∧
  State.reset.runState = .halted ∧ State.reset.compiled = false ∧ State.reset.lastFault = none ∧
  (∀ a : Word, State.reset.present a = false) ∧
  (∀ s : State, hostOp .compileFailed s = .next State.reset) ∧ hostOp .reset State.reset = .next State.reset

/-- R107, R108: `run()` is some number of steps, at most 10000, then nothing more or the cap fault after exactly 10000; and the
engine is not left enabled. (The draw of the boundary case: D13, log 12.) -/
def Obligations.RunIsAtMostTenThousandSteps : Prop :=
  ∀ (d : Bool) (s t : State), run d s = .next t →
    ∃ (n : Nat) (u : State), n ≤ 10000 ∧ AfterSteps n s u ∧
      (∀ (m : Nat) (v : State), m < n → AfterSteps m s v → v.enabled = true) ∧
      ((u.enabled = false ∧ t = u) ∨ (n = 10000 ∧ t = u.raise (.stepCapReached u.pc) ∧ (u.enabled = true ∨ d = true)))

/-- R204: the core does not guarantee termination, some Running engine steps for ever; under `run()` every invocation ends, within
10000 steps, Halted: by a `quit` that stands at the pc, by a fault, or by the cap. -/
def Obligations.RunAlwaysEndsStepsNeedNot : Prop :=
  (∃ s : State, ∀ n : Nat, ∃ t, AfterSteps n s t ∧ t.enabled = true) ∧
  ∀ (d : Bool) (s : State), s.runState = .running → s.compiled = true →
    ∃ (t u : State) (n : Nat), run d s = .next t ∧ t.runState = .halted ∧ n ≤ 10000 ∧ AfterSteps n s u ∧
      ((t = u ∧ ((∃ w, t.fetch = some w ∧ decodeWord w = .quit) ∨ t.lastFault ≠ none)) ∨
        t = u.raise (.stepCapReached u.pc))

/-- R162, R107 (the fault's record: D11, D12, log 9): a program that 10000 steps leave Running is halted by the cap, after exactly
10000 steps, with all their effects and the pc of the instruction that would have been next. -/
def Obligations.StepCapEndsALongRun : Prop :=
  ∀ (d : Bool) (s u : State), AfterSteps 10000 s u → u.enabled = true →
    ∃ t, run d s = .next t ∧ FaultTaken (.stepCapReached u.pc) u t

/-- R107, U7 (D13, log 12): whichever report is drawn for the boundary case, `run()` leaves the same state but for `last_fault`. -/
def Obligations.CapReportIsTheOnlyOpenPartOfRun : Prop :=
  ∀ (d d' : Bool) (s : State), ∃ t t', run d s = .next t ∧ run d' s = .next t' ∧
    { t' with lastFault := t.lastFault } = t ∧
    (t'.lastFault = t.lastFault ∨ t.lastFault = some (.stepCapReached t.pc) ∨
      t'.lastFault = some (.stepCapReached t'.pc))

/-- R110 (the address fault is D2, log 5): a run from a state that meets the invariant ends in exactly one of four ways, told
apart by `last_fault`, with the engine standing at the `quit` or at the pc the fault names. -/
def Obligations.RunEndsInOneOfFourWays : Prop :=
  ∀ (d : Bool) (s t : State), Inv s → s.enabled = true → run d s = .next t → RunEnded t

/-! ### The invariant -/

/-- The invariant holds at power-on (R34, R190). -/
def Obligations.InvariantHoldsAtReset : Prop := Inv State.reset

/-- Every step keeps the invariant (R25, R27, R28, R29, R46, R190): canonical memory, Running only when compiled and without a
recorded fault, a fault that explains the stop, power-on state while not compiled, out-of-range pcs only within a branch's
reach. -/
def Obligations.StepKeepsTheInvariant : Prop :=
  ∀ s t : State, Inv s → step s = .next t → Inv t

/-- Every host operation keeps the invariant, from every state that meets it, so every state that any sequence of host operations
reaches from power-on meets it (R9). -/
def Obligations.HostOperationsKeepTheInvariant : Prop :=
  ∀ (op : HostOp) (s t : State), Inv s → hostOp op s = .next t → Inv t

/-- Memories in canonical form that hold the same words at the same addresses are the same data (R35; the form is the model's,
log 7). -/
def Obligations.CanonicalMemoriesAreEqualWhenTheyReadEqual : Prop :=
  ∀ m m' : Memory, m.wf = true → m'.wf = true → (∀ a : Nat, m.lookup a = m'.lookup a) → m = m'

/-! ### The step report -/

/-- R106: every enabled step has a report. A step that takes a fault reports that fault, and no other step reports one; a step that
takes none reports its address, the fetched word, the decoded instruction and the effect: the register written, the memory
word written, the new pc, or halted, by the instruction. Of the two effects of a `jal` either may be named, and that every
branch names the new pc is the model's choice (log 13). Faults: D2, D3 (log 5), D11, D12 (log 9). -/
def Obligations.ReportTellsWhatTheStepDid : Prop :=
  ∀ s : State, s.enabled = true → ∃ (t : State) (r : Report), step s = .next t ∧ report s = some r ∧
    (s.fetch = none → r = .faulted (.pcOutOfRange s.pc)) ∧
    (∀ w f, s.fetch = some w → faultOf (decodeWord w) s = some f → r = .faulted f) ∧
    (t.lastFault ≠ s.lastFault → ∃ f, r = .faulted f) ∧
    (∀ f, r = .faulted f → FaultTaken f s t) ∧
    (∀ w, s.fetch = some w → faultOf (decodeWord w) s = none →
      ∃ e, r = .executed s.pc w (decodeWord w) e ∧
        (∀ rd, writesOf (decodeWord w) = [rd] → (∀ t12, decodeWord w ≠ .jal t12) → e = .regWritten rd (t.reg rd)) ∧
        (∀ value base imm4, decodeWord w = .st value base imm4 →
          ∃ a : Word, e = .memWritten a (s.reg value) ∧ (s.reg base).toNat + imm4.toNat = a.toNat ∧
            t.lookup a = some (s.reg value) ∧ SameMemBut a s t) ∧
        ((∃ o, decodeWord w = .br o) ∨ (∃ q o, decodeWord w = .bz q o) ∨ (∃ q o, decodeWord w = .bn q o) ∨
          (∃ q, decodeWord w = .jr q) → e = .newPc t.pc) ∧
        (∀ t12, decodeWord w = .jal t12 → e = .regWritten 15 (t.reg 15) ∨ e = .newPc t.pc) ∧
        (decodeWord w = .quit → e = .halted ∧ t.runState = .halted))

/-! ### The assembler -/

/-- R87: a register token is exactly `r` and the decimal index, 0 to 15, any other fails as an invalid register with the address;
a wrong number of operands fails as such for every mnemonic but `ldi`, also where an operand token is invalid too: that the count
is checked first is the model's choice (log 15). -/
def Obligations.RegisterTokensAndOperandCounts : Prop :=
  (∀ (t : Asm.Text) (r : Reg), Asm.parseReg t = some r ↔ t = 'r' :: (toString r.val).toList) ∧
  (∀ (address : Nat) (t : Asm.Text), Asm.parseReg t = none →
    Asm.regOperand address t = .error ⟨.invalidRegister t, address⟩) ∧
  (∀ (table : List (Asm.Text × Nat)) (address : Nat) (args : List Asm.Text),
    (args.length ≠ 3 → ∀ m ∈ ["add", "sub", "and", "or", "shl", "shr", "ld", "st"],
      Asm.encodeTokens table address (m.toList :: args) = .error ⟨.wrongArgumentCount, address⟩) ∧
    (args.length ≠ 2 → ∀ m ∈ ["not", "bz", "bn"],
      Asm.encodeTokens table address (m.toList :: args) = .error ⟨.wrongArgumentCount, address⟩) ∧
    (args.length ≠ 1 → ∀ m ∈ ["br", "jal", "jr"],
      Asm.encodeTokens table address (m.toList :: args) = .error ⟨.wrongArgumentCount, address⟩) ∧
    (args.length ≠ 0 →
      Asm.encodeTokens table address ("quit".toList :: args) = .error ⟨.wrongArgumentCount, address⟩))

/-- R89: `ldi` takes a literal or a label's address in -128 to 255, masked to 8 bits; or the low or high byte of a label's
address. Any other value is out of range, and no label is undefined silently (R88). -/
def Obligations.LdiOperandForms : Prop :=
  ∀ (table : List (Asm.Text × Nat)) (address : Nat) (rt vt : Asm.Text) (r : Reg), Asm.parseReg rt = some r →
    (∀ v : Int, (Asm.parseLiteral vt = some v ∨
        (Asm.parseLiteral vt = none ∧ ∃ a : Nat, Asm.addressOf table vt = some a ∧ v = a)) →
      Asm.encodeTokens table address ["ldi".toList, rt, vt] =
        if -128 ≤ v ∧ v ≤ 255 then .ok (encode (.ldi r (BitVec.ofInt 8 v))) else .error ⟨.outOfRange v, address⟩) ∧
    (∀ a : Nat, Asm.addressOf table vt = some a →
      Asm.encodeTokens table address ["ldi".toList, rt, "low".toList, vt] =
        .ok (encode (.ldi r (BitVec.ofNat 8 (a % 256)))) ∧
      Asm.encodeTokens table address ["ldi".toList, rt, "high".toList, vt] =
        .ok (encode (.ldi r (BitVec.ofNat 8 (a / 256 % 256))))) ∧
    (Asm.addressOf table vt = none →
      Asm.encodeTokens table address ["ldi".toList, rt, "low".toList, vt] = .error ⟨.undefinedLabel vt, address⟩ ∧
      Asm.encodeTokens table address ["ldi".toList, rt, "high".toList, vt] = .error ⟨.undefinedLabel vt, address⟩ ∧
      (Asm.parseLiteral vt = none →
        Asm.encodeTokens table address ["ldi".toList, rt, vt] = .error ⟨.undefinedLabel vt, address⟩))

/-- R91: a branch offset is the literal as it stands, or the label's address less the branch's own; -128 to 255, masked to 8
bits; for `br`, `bz` and `bn` alike; the engine reads 128 to 255 as that less 256. A token that is neither a number nor a
label of the table is an undefined label (R88, R95, S9). -/
def Obligations.BranchOperandForms : Prop :=
  ∀ (table : List (Asm.Text × Nat)) (address : Nat) (rt vt : Asm.Text) (r : Reg), Asm.parseReg rt = some r →
    (∀ v : Int, (Asm.parseLiteral vt = some v ∨
        (Asm.parseLiteral vt = none ∧ ∃ a : Nat, Asm.addressOf table vt = some a ∧ v = (a : Int) - address)) →
      Asm.encodeTokens table address ["br".toList, vt] =
        (if -128 ≤ v ∧ v ≤ 255 then .ok (encode (.br (BitVec.ofInt 8 v))) else .error ⟨.outOfRange v, address⟩) ∧
      Asm.encodeTokens table address ["bz".toList, rt, vt] =
        (if -128 ≤ v ∧ v ≤ 255 then .ok (encode (.bz r (BitVec.ofInt 8 v))) else .error ⟨.outOfRange v, address⟩) ∧
      Asm.encodeTokens table address ["bn".toList, rt, vt] =
        (if -128 ≤ v ∧ v ≤ 255 then .ok (encode (.bn r (BitVec.ofInt 8 v))) else .error ⟨.outOfRange v, address⟩) ∧
      (-128 ≤ v ∧ v ≤ 255 → sint8 (BitVec.ofInt 8 v) = if v < 128 then v else v - 256)) ∧
    (Asm.parseLiteral vt = none → Asm.addressOf table vt = none →
      Asm.encodeTokens table address ["br".toList, vt] = .error ⟨.undefinedLabel vt, address⟩ ∧
      Asm.encodeTokens table address ["bz".toList, rt, vt] = .error ⟨.undefinedLabel vt, address⟩ ∧
      Asm.encodeTokens table address ["bn".toList, rt, vt] = .error ⟨.undefinedLabel vt, address⟩)

/-- R92: a numeric `jal` target must lie in 0 to 0xFFF; a label is masked to 12 bits and never fails the range check. A token that is
neither a number nor a label of the table is an undefined label (R88, R95, S9). -/
def Obligations.JalOperandForms : Prop :=
  ∀ (table : List (Asm.Text × Nat)) (address : Nat) (vt : Asm.Text),
    (∀ v : Int, Asm.parseLiteral vt = some v →
      Asm.encodeTokens table address ["jal".toList, vt] =
        if 0 ≤ v ∧ v ≤ 0xFFF then .ok (encode (.jal (BitVec.ofInt 12 v))) else .error ⟨.outOfRange v, address⟩) ∧
    (∀ a : Nat, Asm.parseLiteral vt = none → Asm.addressOf table vt = some a →
      Asm.encodeTokens table address ["jal".toList, vt] = .ok (encode (.jal (BitVec.ofNat 12 (a % 4096))))) ∧
    (Asm.parseLiteral vt = none → Asm.addressOf table vt = none →
      Asm.encodeTokens table address ["jal".toList, vt] = .error ⟨.undefinedLabel vt, address⟩)

/-- R90, R94 (labels refused in both: D22, log 14): an `ld` or `st` offset is a literal 0 to 15; a data literal lies in -32768 to
65535 and is masked to 16 bits. -/
def Obligations.OffsetAndDataLiterals : Prop :=
  ∀ (table : List (Asm.Text × Nat)) (address : Nat) (at' bt vt : Asm.Text) (r q : Reg),
    Asm.parseReg at' = some r → Asm.parseReg bt = some q →
    (∀ v : Int, Asm.parseLiteral vt = some v →
      Asm.encodeTokens table address ["ld".toList, at', bt, vt] =
        (if 0 ≤ v ∧ v ≤ 15 then .ok (encode (.ld r q (BitVec.ofInt 4 v))) else .error ⟨.outOfRange v, address⟩) ∧
      Asm.encodeTokens table address ["st".toList, at', bt, vt] =
        (if 0 ≤ v ∧ v ≤ 15 then .ok (encode (.st r q (BitVec.ofInt 4 v))) else .error ⟨.outOfRange v, address⟩) ∧
      Asm.encodeData address (some vt) =
        (if -32768 ≤ v ∧ v ≤ 65535 then .ok (BitVec.ofInt 16 v) else .error ⟨.outOfRange v, address⟩)) ∧
    (Asm.parseLiteral vt = none →
      Asm.encodeTokens table address ["ld".toList, at', bt, vt] = .error ⟨.invalidImmediate vt, address⟩ ∧
      Asm.encodeTokens table address ["st".toList, at', bt, vt] = .error ⟨.invalidImmediate vt, address⟩ ∧
      Asm.encodeData address (some vt) = .error ⟨.invalidInteger vt, address⟩)

/-- R50, R57, R85, R95, R193: a compile that assembles (and fits the space: D15, log 14) puts program words at 0 to dataBase - 1
and data words after them, and nothing else is present; any failure leaves the engine not compiled and Halted. -/
def Obligations.CompiledImageIsContiguousFromZero : Prop :=
  ∀ (src : Asm.Text) (s : State),
    (∀ a, Asm.assemble src = .ok a → a.program.length = (Asm.parse src).dataBase ∧
      a.data.length = (Asm.parse src).data.length ∧
      (a.words.length ≤ 65536 → ∃ t, hostOp (.compile src) s = .next t ∧
        ∀ k : Word, t.lookup k = (a.program ++ a.data)[k.toNat]?)) ∧
    (∀ e, Asm.assemble src = .error e → hostOp (.compile src) s = .next State.reset)

/-- R86, R93, U18: the word of a non-empty program line is the word of the instruction its tokens stand for, never the all-zero
word of an empty token list; a line that has no token fails with its address (as an unknown mnemonic: log 15). -/
def Obligations.ProgramLinesAssembleToTheirInstruction : Prop :=
  ∀ (table : List (Asm.Text × Nat)) (address : Nat) (line : Asm.Text), line ≠ [] →
    (∀ w : Word, Asm.encodeLine table address line = .ok w →
      ∃ m args i, Asm.tokens line = m :: args ∧ Asm.instrOf table address m args = .ok i ∧ w = encode i) ∧
    (Asm.tokens line = [] → Asm.encodeLine table address line = .error ⟨.unknownMnemonic line, address⟩)

/-- R62, R75, R93: every word of the program segment that the assembler makes has its ignored bits 0. -/
def Obligations.AssembledProgramWordsAreCanonical : Prop :=
  ∀ (src : Asm.Text) (a : Asm.Assembled), Asm.assemble src = .ok a → ∀ w ∈ a.program, canonicalWord w = true
end

