-- ==== Sys2Proof/Laws/State.lean ====
section
/-! SUPPORT. One lemma per field per update of the state, so that no proof unfolds a record update. -/

namespace Sys2Proof.Machine

section writeReg
variable (s : State) (r : Reg) (v : Word)

@[simp] theorem State.writeReg_pc : (s.writeReg r v).pc = s.pc := rfl
@[simp] theorem State.writeReg_pcOor : (s.writeReg r v).pcOor = s.pcOor := rfl
@[simp] theorem State.writeReg_runState : (s.writeReg r v).runState = s.runState := rfl
@[simp] theorem State.writeReg_compiled : (s.writeReg r v).compiled = s.compiled := rfl
@[simp] theorem State.writeReg_lastFault : (s.writeReg r v).lastFault = s.lastFault := rfl
@[simp] theorem State.writeReg_mem : (s.writeReg r v).mem = s.mem := rfl

/-- What reading any register gives after one register is written (R20, R21). -/
@[simp] theorem State.reg_writeReg (q : Reg) : (s.writeReg r v).reg q = if q = r then v else s.reg q := by
  simp [State.reg, State.writeReg, Vector.getElem_set, Fin.ext_iff, eq_comm]

end writeReg

section memWrite
variable (s : State) (a : Word) (v : Word)

@[simp] theorem State.memWrite_reg (q : Reg) : (s.memWrite a v).reg q = s.reg q := rfl
@[simp] theorem State.memWrite_pc : (s.memWrite a v).pc = s.pc := rfl
@[simp] theorem State.memWrite_pcOor : (s.memWrite a v).pcOor = s.pcOor := rfl
@[simp] theorem State.memWrite_runState : (s.memWrite a v).runState = s.runState := rfl
@[simp] theorem State.memWrite_compiled : (s.memWrite a v).compiled = s.compiled := rfl
@[simp] theorem State.memWrite_lastFault : (s.memWrite a v).lastFault = s.lastFault := rfl
@[simp] theorem State.memWrite_mem : (s.memWrite a v).mem = s.mem.write a.toNat v := rfl

end memWrite

section setPc
variable (s : State) (n : Int)

@[simp] theorem State.setPc_reg (q : Reg) : (s.setPc n).reg q = s.reg q := rfl
@[simp] theorem State.setPc_pc : (s.setPc n).pc = BitVec.ofInt 16 n := rfl
@[simp] theorem State.setPc_pcOor : (s.setPc n).pcOor = decide (n < 0 ∨ 0xFFFF < n) := rfl
@[simp] theorem State.setPc_runState : (s.setPc n).runState = s.runState := rfl
@[simp] theorem State.setPc_compiled : (s.setPc n).compiled = s.compiled := rfl
@[simp] theorem State.setPc_lastFault : (s.setPc n).lastFault = s.lastFault := rfl
@[simp] theorem State.setPc_mem : (s.setPc n).mem = s.mem := rfl

end setPc

section advance
variable (s : State)

@[simp] theorem State.advance_reg (q : Reg) : s.advance.reg q = s.reg q := rfl
@[simp] theorem State.advance_pc : s.advance.pc = BitVec.ofInt 16 ((s.pc.toNat : Int) + 1) := rfl
@[simp] theorem State.advance_pcOor :
    s.advance.pcOor = decide ((s.pc.toNat : Int) + 1 < 0 ∨ 0xFFFF < (s.pc.toNat : Int) + 1) := rfl
@[simp] theorem State.advance_runState : s.advance.runState = s.runState := rfl
@[simp] theorem State.advance_compiled : s.advance.compiled = s.compiled := rfl
@[simp] theorem State.advance_lastFault : s.advance.lastFault = s.lastFault := rfl
@[simp] theorem State.advance_mem : s.advance.mem = s.mem := rfl

end advance

section jump
variable (s : State) (a : Word)

@[simp] theorem State.jump_reg (q : Reg) : (s.jump a).reg q = s.reg q := rfl
@[simp] theorem State.jump_pc : (s.jump a).pc = a := rfl
@[simp] theorem State.jump_pcOor : (s.jump a).pcOor = false := rfl
@[simp] theorem State.jump_runState : (s.jump a).runState = s.runState := rfl
@[simp] theorem State.jump_compiled : (s.jump a).compiled = s.compiled := rfl
@[simp] theorem State.jump_lastFault : (s.jump a).lastFault = s.lastFault := rfl
@[simp] theorem State.jump_mem : (s.jump a).mem = s.mem := rfl

end jump

section halt
variable (s : State)

@[simp] theorem State.halt_reg (q : Reg) : s.halt.reg q = s.reg q := rfl
@[simp] theorem State.halt_pc : s.halt.pc = s.pc := rfl
@[simp] theorem State.halt_pcOor : s.halt.pcOor = s.pcOor := rfl
@[simp] theorem State.halt_runState : s.halt.runState = .halted := rfl
@[simp] theorem State.halt_compiled : s.halt.compiled = s.compiled := rfl
@[simp] theorem State.halt_lastFault : s.halt.lastFault = s.lastFault := rfl
@[simp] theorem State.halt_mem : s.halt.mem = s.mem := rfl

end halt

section raise
variable (s : State) (f : ExecFault)

@[simp] theorem State.raise_reg (q : Reg) : (s.raise f).reg q = s.reg q := rfl
@[simp] theorem State.raise_pc : (s.raise f).pc = s.pc := rfl
@[simp] theorem State.raise_pcOor : (s.raise f).pcOor = s.pcOor := rfl
@[simp] theorem State.raise_runState : (s.raise f).runState = .halted := rfl
@[simp] theorem State.raise_compiled : (s.raise f).compiled = s.compiled := rfl
@[simp] theorem State.raise_lastFault : (s.raise f).lastFault = some f := rfl
@[simp] theorem State.raise_mem : (s.raise f).mem = s.mem := rfl

end raise

section placeWord
variable (s : State) (w : Word)

@[simp] theorem State.placeWord_reg (q : Reg) : (s.placeWord w).reg q = s.reg q := rfl
@[simp] theorem State.placeWord_pc : (s.placeWord w).pc = s.pc := rfl
@[simp] theorem State.placeWord_pcOor : (s.placeWord w).pcOor = false := rfl
@[simp] theorem State.placeWord_runState : (s.placeWord w).runState = .running := rfl
@[simp] theorem State.placeWord_compiled : (s.placeWord w).compiled = true := rfl
@[simp] theorem State.placeWord_lastFault : (s.placeWord w).lastFault = s.lastFault := rfl
@[simp] theorem State.placeWord_mem : (s.placeWord w).mem = s.mem.write s.pc.toNat w := rfl

end placeWord

/-- Memory is read through the memory field alone. -/
theorem State.lookup_of_mem {s t : State} (h : t.mem = s.mem) (a : Word) : t.lookup a = s.lookup a := by
  simp [State.lookup, h]

/-- An engine is enabled exactly when it is Running and compiled (R100). -/
theorem State.enabled_iff (s : State) : s.enabled = true ↔ s.runState = .running ∧ s.compiled = true := by
  simp [State.enabled]

/-- A halted engine is not enabled. -/
theorem State.enabled_of_halted {s : State} (h : s.runState = .halted) : s.enabled = false := by
  simp [State.enabled, h]

end Sys2Proof.Machine
end

