-- ==== Sys2Proof/Laws/Memory.lean ====
section
/-! SUPPORT. The laws of memory: a read after a write, every other address left alone, and the canonical form kept by every
operation. -/

namespace Sys2Proof.Machine

/-- What any address holds after a write (R45). -/
@[simp] theorem Memory.lookup_write (m : Memory) (a : Nat) (v : Word) (b : Nat) :
    (m.write a v).lookup b = if b = a then some v else m.lookup b := by
  induction m with
  | nil => simp [Memory.write, Memory.lookup]
  | cons cell m ih =>
    obtain ⟨c, w⟩ := cell
    simp only [Memory.write]
    by_cases h1 : a < c
    · rw [if_pos h1]
      rfl
    · by_cases h2 : a = c
      · subst h2
        rw [if_neg h1, if_pos rfl]
        simp only [Memory.lookup]
        by_cases h3 : b = a <;> simp [h3]
      · rw [if_neg h1, if_neg h2]
        simp only [Memory.lookup, ih]
        by_cases h3 : b = c
        · subst h3
          rw [if_pos rfl, if_neg (Ne.symm h2), if_pos rfl]
        · simp [h3]

/-- What any address of the state holds after a store. -/
@[simp] theorem State.lookup_memWrite (s : State) (a : Word) (v : Word) (b : Word) :
    (s.memWrite a v).lookup b = if b = a then some v else s.lookup b := by
  simp [State.lookup, BitVec.toNat_inj]

/-- A memory that is well formed from a higher address is well formed from a lower one. -/
theorem Memory.wfFrom_mono {lo lo' : Nat} (h : lo ≤ lo') {m : Memory} (hm : m.wfFrom lo' = true) :
    m.wfFrom lo = true := by
  cases m with
  | nil => rfl
  | cons cell m =>
    obtain ⟨a, w⟩ := cell
    simp only [Memory.wfFrom, Bool.and_eq_true, decide_eq_true_eq] at hm ⊢
    exact ⟨⟨le_trans h hm.1.1, hm.1.2⟩, hm.2⟩

/-- A write keeps the canonical form above any address not above the one written. -/
theorem Memory.wfFrom_write {m : Memory} {lo a : Nat} (v : Word) (ha : a < Config.addressSpace) (hlo : lo ≤ a)
    (hm : m.wfFrom lo = true) : (m.write a v).wfFrom lo = true := by
  induction m generalizing lo with
  | nil => simp [Memory.write, Memory.wfFrom, ha, hlo]
  | cons cell m ih =>
    obtain ⟨b, w⟩ := cell
    simp only [Memory.wfFrom, Bool.and_eq_true, decide_eq_true_eq] at hm
    simp only [Memory.write]
    split_ifs with h1 h2
    · simp only [Memory.wfFrom, Bool.and_eq_true, decide_eq_true_eq]
      exact ⟨⟨hlo, ha⟩, ⟨h1, hm.1.2⟩, hm.2⟩
    · subst h2
      simp only [Memory.wfFrom, Bool.and_eq_true, decide_eq_true_eq]
      exact hm
    · simp only [Memory.wfFrom, Bool.and_eq_true, decide_eq_true_eq]
      exact ⟨hm.1, ih (by omega) hm.2⟩

/-- A write keeps the canonical form. -/
theorem Memory.wf_write {m : Memory} {a : Nat} (v : Word) (ha : a < Config.addressSpace) (hm : m.wf = true) :
    (m.write a v).wf = true := Memory.wfFrom_write v ha (Nat.zero_le a) hm

/-- A store keeps the canonical form of the state's memory. -/
theorem State.wf_memWrite {s : State} (a : Word) (v : Word) (hm : s.mem.wf = true) :
    (s.memWrite a v).mem.wf = true := Memory.wf_write v a.isLt hm

/-- The memory of any image is in canonical form (R57). -/
theorem Memory.wf_ofImage (image : List (Word × Word)) : (Memory.ofImage image).wf = true := by
  suffices h : ∀ m : Memory, m.wf = true →
      (image.foldl (fun m p => m.write p.1.toNat p.2) m).wf = true from h [] rfl
  induction image with
  | nil => exact fun m hm => hm
  | cons p image ih => exact fun m hm => ih _ (Memory.wf_write p.2 p.1.isLt hm)

/-- A canonical memory holds nothing below where it starts. -/
theorem Memory.lookup_below {m : Memory} {lo a : Nat} (hm : m.wfFrom lo = true) (h : a < lo) : m.lookup a = none := by
  induction m generalizing lo with
  | nil => rfl
  | cons cell m ih =>
    obtain ⟨b, w⟩ := cell
    simp only [Memory.wfFrom, Bool.and_eq_true, decide_eq_true_eq] at hm
    have hb : a ≠ b := by omega
    simp only [Memory.lookup, if_neg hb]
    exact ih hm.2 (by omega)

/-- Adding a word at the end of an image. -/
theorem Memory.ofImage_append (image : List (Word × Word)) (a w : Word) :
    Memory.ofImage (image ++ [(a, w)]) = (Memory.ofImage image).write a.toNat w := by
  simp [Memory.ofImage]

end Sys2Proof.Machine
end

