-- ==== Sys2Proof/Laws/Assembler.lean ====
section
/-! SUPPORT. What the assembler's shared parts do: encoding a list of items, and where an image's words come to stand. -/

namespace Sys2Proof.Asm

/-- Encoding items gives one word each, each the word of some item. -/
theorem encodeFrom_spec {α : Type} {enc : Nat → α → Except Failure Word} {a : Nat} {xs : List α} {ws : List Word}
    (h : encodeFrom enc a xs = .ok ws) : ws.length = xs.length ∧ ∀ w ∈ ws, ∃ k x, enc k x = .ok w := by
  induction xs generalizing a ws with
  | nil =>
    cases h
    simp
  | cons x xs ih =>
    simp only [encodeFrom, Bind.bind, Except.bind, Pure.pure, Except.pure] at h
    split at h
    · cases h
    · rename_i w hw
      split at h
      · cases h
      · rename_i ws' hws
        cases h
        refine ⟨by simp [(ih hws).1], fun y hy => ?_⟩
        rcases List.mem_cons.1 hy with rfl | hy
        · exact ⟨_, _, hw⟩
        · exact (ih hws).2 y hy

/-- The word of a program line is the word of an instruction, unless the line is blank (U18). -/
theorem encodeLine_spec {table : List (Text × Nat)} {address : Nat} {line : Text} {w : Word}
    (h : encodeLine table address line = .ok w) :
    (line = [] ∧ w = 0) ∨ ∃ m args i, tokens line = m :: args ∧ instrOf table address m args = .ok i ∧ w = encode i := by
  unfold encodeLine at h
  split_ifs at h with hs
  cases ht : tokens line with
  | nil =>
    rw [ht] at h
    cases h
    exact .inl ⟨by_contra fun hl => hs ⟨ht, hl⟩, rfl⟩
  | cons m args =>
    rw [ht] at h
    cases hi : instrOf table address m args with
    | error e => simp [encodeTokens, hi, Except.map] at h
    | ok i =>
      simp only [encodeTokens, hi, Except.map] at h
      cases h
      exact .inr ⟨m, args, i, rfl, hi, rfl⟩

/-- What each address holds after the words of an image have been written from address `a` up. -/
theorem lookup_imageFrom (ws : List Word) (a : Nat) (m : Machine.Memory) (k : Nat) (hb : a + ws.length ≤ 65536) :
    Machine.Memory.lookup ((imageFrom a ws).foldl (fun m p => Machine.Memory.write m p.1.toNat p.2) m) k =
      if a ≤ k ∧ k < a + ws.length then ws[k - a]? else Machine.Memory.lookup m k := by
  induction ws generalizing a m with
  | nil =>
    simp [imageFrom]
  | cons w ws ih =>
    simp only [List.length_cons] at hb ⊢
    have ha : (BitVec.ofNat 16 a).toNat = a := by
      rw [BitVec.toNat_ofNat]
      omega
    simp only [imageFrom, List.foldl_cons]
    rw [ih (a + 1) _ (by omega), Machine.Memory.lookup_write, ha]
    by_cases hk : k = a
    · subst hk
      simp
    · by_cases h1 : a + 1 ≤ k ∧ k < a + 1 + ws.length
      · rw [if_pos h1, if_pos (by omega), show k - a = (k - (a + 1)) + 1 by omega, List.getElem?_cons_succ]
      · rw [if_neg h1, if_neg hk, if_neg (by omega)]

end Sys2Proof.Asm
end

