-- ==== Sys2Proof/Laws/Decode.lean ====
section
/-! SUPPORT. The decoder's fields and the encoder's packing, each as a number, and a word as its opcode and operand bits. -/

namespace Sys2Proof

@[simp] theorem regOfField_fieldOfReg (r : Reg) : regOfField (fieldOfReg r) = r := rfl

@[simp] theorem fieldOfReg_regOfField (f : BitVec 4) : fieldOfReg (regOfField f) = f := rfl

@[simp] theorem toNat_fieldOfReg (r : Reg) : (fieldOfReg r).toNat = r.val := rfl

@[simp] theorem val_regOfField (f : BitVec 4) : (regOfField f).val = f.toNat := rfl

/-! ### Fields as numbers -/

theorem toNat_fieldOp (w : Word) : (fieldOp w).toNat = w.toNat / 4096 := by
  have := w.isLt
  simp only [fieldOp, BitVec.extractLsb'_toNat, Nat.shiftRight_eq_div_pow]
  omega

theorem toNat_fieldA (w : Word) : (fieldA w).toNat = w.toNat / 256 % 16 := by
  simp only [fieldA, BitVec.extractLsb'_toNat, Nat.shiftRight_eq_div_pow]

theorem toNat_fieldB (w : Word) : (fieldB w).toNat = w.toNat / 16 % 16 := by
  simp only [fieldB, BitVec.extractLsb'_toNat, Nat.shiftRight_eq_div_pow]

theorem toNat_fieldC (w : Word) : (fieldC w).toNat = w.toNat % 16 := by
  simp only [fieldC, BitVec.extractLsb'_toNat, Nat.shiftRight_zero]

theorem toNat_fieldImm8 (w : Word) : (fieldImm8 w).toNat = w.toNat % 256 := by
  simp only [fieldImm8, BitVec.extractLsb'_toNat, Nat.shiftRight_zero]

theorem toNat_fieldOff8 (w : Word) : (fieldOff8 w).toNat = w.toNat / 16 % 256 := by
  simp only [fieldOff8, BitVec.extractLsb'_toNat, Nat.shiftRight_eq_div_pow]

theorem toNat_fieldT12 (w : Word) : (fieldT12 w).toNat = w.toNat % 4096 := by
  simp only [fieldT12, BitVec.extractLsb'_toNat, Nat.shiftRight_zero]

/-! ### Packing as numbers -/

theorem toNat_packWord (op : BitVec 4) (x : BitVec 12) : (packWord op x).toNat = op.toNat * 4096 + x.toNat := by
  have h := BitVec.toNat_append op x
  rw [← Nat.shiftLeft_add_eq_or_of_lt x.isLt, Nat.shiftLeft_eq] at h
  exact h

theorem toNat_pack48 (a : BitVec 4) (b : BitVec 8) : (pack48 a b).toNat = a.toNat * 256 + b.toNat := by
  have h := BitVec.toNat_append a b
  rw [← Nat.shiftLeft_add_eq_or_of_lt b.isLt, Nat.shiftLeft_eq] at h
  exact h

theorem toNat_pack84 (a : BitVec 8) (b : BitVec 4) : (pack84 a b).toNat = a.toNat * 16 + b.toNat := by
  have h := BitVec.toNat_append a b
  rw [← Nat.shiftLeft_add_eq_or_of_lt b.isLt, Nat.shiftLeft_eq] at h
  exact h

theorem toNat_pack444 (a b c : BitVec 4) :
    (pack444 a b c).toNat = a.toNat * 256 + b.toNat * 16 + c.toNat := by
  have h := BitVec.toNat_append (a ++ b) c
  have h' := BitVec.toNat_append a b
  rw [← Nat.shiftLeft_add_eq_or_of_lt c.isLt, Nat.shiftLeft_eq] at h
  rw [← Nat.shiftLeft_add_eq_or_of_lt b.isLt, Nat.shiftLeft_eq] at h'
  have e : (pack444 a b c).toNat = (a ++ b).toNat * 2 ^ 4 + c.toNat := h
  rw [e, h']
  omega

/-! ### A word is its opcode and its operand bits -/

@[simp] theorem fieldOp_packWord (op : BitVec 4) (x : BitVec 12) : fieldOp (packWord op x) = op := by
  apply BitVec.eq_of_toNat_eq
  have := x.isLt
  rw [toNat_fieldOp, toNat_packWord]
  omega

@[simp] theorem fieldT12_packWord (op : BitVec 4) (x : BitVec 12) : fieldT12 (packWord op x) = x := by
  apply BitVec.eq_of_toNat_eq
  have := x.isLt
  rw [toNat_fieldT12, toNat_packWord]
  omega

/-- Any word is packed from its opcode and its low twelve bits. -/
theorem packWord_fields (w : Word) : packWord (fieldOp w) (fieldT12 w) = w := by
  apply BitVec.eq_of_toNat_eq
  rw [toNat_packWord, toNat_fieldOp, toNat_fieldT12]
  omega

/-- Any word is packed from its four 4-bit fields. -/
theorem packWord_nibbles (w : Word) : packWord (fieldOp w) (pack444 (fieldA w) (fieldB w) (fieldC w)) = w := by
  apply BitVec.eq_of_toNat_eq
  rw [toNat_packWord, toNat_pack444, toNat_fieldOp, toNat_fieldA, toNat_fieldB, toNat_fieldC]
  omega

/-- The fields of a word packed from three 4-bit fields. -/
theorem fields_pack444 (op a b c : BitVec 4) :
    fieldA (packWord op (pack444 a b c)) = a ∧ fieldB (packWord op (pack444 a b c)) = b ∧
      fieldC (packWord op (pack444 a b c)) = c := by
  have ha := a.isLt
  have hb := b.isLt
  have hc := c.isLt
  refine ⟨BitVec.eq_of_toNat_eq ?_, BitVec.eq_of_toNat_eq ?_, BitVec.eq_of_toNat_eq ?_⟩ <;>
    simp only [toNat_fieldA, toNat_fieldB, toNat_fieldC, toNat_packWord, toNat_pack444] <;> omega

/-- The fields of a word packed from a 4-bit and an 8-bit field. -/
theorem fields_pack48 (op a : BitVec 4) (b : BitVec 8) :
    fieldA (packWord op (pack48 a b)) = a ∧ fieldImm8 (packWord op (pack48 a b)) = b := by
  have ha := a.isLt
  have hb := b.isLt
  refine ⟨BitVec.eq_of_toNat_eq ?_, BitVec.eq_of_toNat_eq ?_⟩ <;>
    simp only [toNat_fieldA, toNat_fieldImm8, toNat_packWord, toNat_pack48] <;> omega

/-- The fields of a word packed from an 8-bit and a 4-bit field. -/
theorem fields_pack84 (op b : BitVec 4) (a : BitVec 8) :
    fieldOff8 (packWord op (pack84 a b)) = a ∧ fieldC (packWord op (pack84 a b)) = b := by
  have ha := a.isLt
  have hb := b.isLt
  refine ⟨BitVec.eq_of_toNat_eq ?_, BitVec.eq_of_toNat_eq ?_⟩ <;>
    simp only [toNat_fieldOff8, toNat_fieldC, toNat_packWord, toNat_pack84] <;> omega

/-- Two words with the same opcode and the same low twelve bits are the same. -/
theorem word_ext {w w' : Word} (ho : fieldOp w = fieldOp w') (ht : fieldT12 w = fieldT12 w') : w = w' := by
  rw [← packWord_fields w, ← packWord_fields w', ho, ht]

end Sys2Proof
end

