-- ==== Sys2Proof/Laws/Ops.lean ====
section
/-! SUPPORT. What each shared operation does, said once in the terms of statements; proofs cite these and do not unfold the
operation. -/

namespace Sys2Proof.Machine

/-! ### The pc -/

/-- `setPc` is `SetPC` of R25. -/
theorem State.setPc_spec (s : State) (n : Int) : PcSetTo (s.setPc n) n := by
  constructor
  · simp only [State.setPc_pc, BitVec.toNat_ofInt]
    omega
  · simp

/-- The default advance is `SetPC(pc + 1)` (R104). -/
theorem State.advance_spec (s : State) : PcSetTo s.advance ((s.pc.toNat : Int) + 1) := s.setPc_spec _

/-- A jump reaches any word and is never out of range (R143, R144). -/
theorem State.jump_spec (s : State) (a : Word) : PcSetTo (s.jump a) (a.toNat : Int) := by
  have := a.isLt
  constructor
  · rw [State.jump_pc, Int.emod_eq_of_lt] <;> omega
  · simp only [State.jump_pcOor, Bool.false_eq_true, false_iff]
    omega

/-! ### Faults -/

/-- Raising a fault takes it, and nothing else happens (R167). -/
theorem State.raise_spec (s : State) (f : ExecFault) : FaultTaken f s (s.raise f) :=
  ⟨rfl, rfl, fun _ => rfl, ⟨rfl, rfl⟩, fun _ => rfl, rfl⟩

/-! ### Writing a result -/

/-- Everything "write a register and advance PC by 1" does (R103). -/
theorem writeResult_spec (s : State) (rd : Reg) (v : Word) :
    (writeResult s rd v).reg rd = v ∧ SameRegsBut rd s (writeResult s rd v) ∧
      PcSetTo (writeResult s rd v) ((s.pc.toNat : Int) + 1) ∧ SameMem s (writeResult s rd v) ∧
      SameControl s (writeResult s rd v) :=
  ⟨by simp [writeResult], fun r hr => by simp [writeResult, hr], (s.writeReg rd v).advance_spec, fun _ => rfl,
    rfl, rfl, rfl⟩

/-- Everything a store and the advance after it do (R137). -/
theorem storeAdvance_spec (s : State) (a v : Word) :
    (s.memWrite a v).advance.lookup a = some v ∧ SameMemBut a s (s.memWrite a v).advance ∧
      SameRegs s (s.memWrite a v).advance ∧ PcSetTo (s.memWrite a v).advance ((s.pc.toNat : Int) + 1) ∧
      SameControl s (s.memWrite a v).advance := by
  have h : ∀ b, (s.memWrite a v).advance.lookup b = (s.memWrite a v).lookup b := fun _ => rfl
  exact ⟨by simp [h], fun b hb => by simp [h, hb], fun _ => rfl, (s.memWrite a v).advance_spec, rfl, rfl, rfl⟩

/-! ### Addresses -/

/-- An effective address inside the space is used. -/
theorem withAddress_of_le {s : State} {base : Reg} {imm4 : BitVec 4} (access : Word → State) {a : Word}
    (h : effectiveAddress s base imm4 = a.toNat) : withAddress s base imm4 access = access a := by
  have ha := a.isLt
  have hle : ¬ 0xFFFF < effectiveAddress s base imm4 := by omega
  simp [withAddress, hle]
  simp [h]

/-- An effective address above the space is the fault `EaOutOfRange` (R46). -/
theorem withAddress_of_gt {s : State} {base : Reg} {imm4 : BitVec 4} (access : Word → State)
    (h : 0xFFFF < effectiveAddress s base imm4) :
    withAddress s base imm4 access = s.raise (.eaOutOfRange s.pc (effectiveAddress s base imm4)) := by
  simp [withAddress, h]

/-- The effective address of R135 is at most 0x1000E. -/
theorem effectiveAddress_le (s : State) (base : Reg) (imm4 : BitVec 4) : effectiveAddress s base imm4 ≤ 0x1000E := by
  have h1 := (s.reg base).isLt
  have h2 := imm4.isLt
  simp only [effectiveAddress]
  omega

/-- One of the two: the access at an address of the space, or the fault. -/
theorem withAddress_cases (s : State) (base : Reg) (imm4 : BitVec 4) (access : Word → State) :
    (∃ a : Word, effectiveAddress s base imm4 = a.toNat ∧ withAddress s base imm4 access = access a) ∨
      (0xFFFF < effectiveAddress s base imm4 ∧
        withAddress s base imm4 access = s.raise (.eaOutOfRange s.pc (effectiveAddress s base imm4))) := by
  by_cases h : 0xFFFF < effectiveAddress s base imm4
  · exact .inr ⟨h, withAddress_of_gt access h⟩
  · have ha : effectiveAddress s base imm4 = (BitVec.ofNat 16 (effectiveAddress s base imm4)).toNat := by
      rw [BitVec.toNat_ofNat]
      omega
    exact .inl ⟨_, ha, withAddress_of_le access ha⟩

/-! ### Immediates and targets -/

/-- `sint8` lies in -128 to 127 (R8). -/
theorem sint8_bounds (v : BitVec 8) : -128 ≤ sint8 v ∧ sint8 v ≤ 127 := by
  have := v.isLt
  simp only [sint8]
  split_ifs <;> omega

/-- The condition of `bz` as a number (R141). -/
theorem isZero_iff (v : Word) : isZero v = true ↔ v.toNat = 0 := by
  simp [isZero, BitVec.toNat_eq]

/-- The condition of `bn` as a number: `x[test] >= 0x8000` (R142). -/
theorem isNegative_iff (v : Word) : isNegative v = true ↔ 0x8000 ≤ v.toNat := by
  have h := BitVec.msb_eq_decide v
  rw [BitVec.msb_eq_getLsbD_last] at h
  simp only [isNegative]
  simp at h
  simp [h]

/-- The target of `jal` as a number (R143). -/
theorem toNat_jalTarget (pc : Word) (t12 : BitVec 12) :
    (jalTarget pc t12).toNat = pc.toNat / 4096 * 4096 + t12.toNat := by
  have h : jalTarget pc t12 = packWord (fieldOp pc) t12 := rfl
  rw [h, toNat_packWord, toNat_fieldOp]

/-- Everything a relative branch does (R145, R104). -/
theorem branchIf_spec (taken : Bool) (off8 : BitVec 8) (s : State) :
    PcSetTo (branchIf taken off8 s) (if taken then branchTarget s.pc off8 else (s.pc.toNat : Int) + 1) ∧
      SameRegs s (branchIf taken off8 s) ∧ SameMem s (branchIf taken off8 s) ∧
      SameControl s (branchIf taken off8 s) := by
  cases taken
  · exact ⟨s.advance_spec, fun _ => rfl, fun _ => rfl, rfl, rfl, rfl⟩
  · exact ⟨s.setPc_spec _, fun _ => rfl, fun _ => rfl, rfl, rfl, rfl⟩

/-- The shift count is the amount modulo 2^SHAMT_BITS (R128). -/
theorem shiftCount_eq (bits : Config.ShamtBits) (v : Word) : shiftCount bits v = v.toNat % 2 ^ bits.bits := by
  simp only [shiftCount]
  split_ifs with h
  · cases bits <;> simp only [Config.ShamtBits.bits] <;> omega
  · rfl

/-- The value of `ldi` under the reading `zero` (R130). -/
theorem ldiValue_zero (v : BitVec 8) : ldiValue .zero v = zext16 v := by simp [ldiValue]

/-- The value of `ldi` under the reading `sign` (R130). -/
theorem ldiValue_sign (v : BitVec 8) : ldiValue .sign v = sext8to16 v := by
  simp only [ldiValue, sext8to16]
  split_ifs <;> rfl

end Sys2Proof.Machine
end

