-- ==== Sys2Proof/Laws/Step.lean ====
section
/-! SUPPORT. What an instruction and a step can do, said once: the inversion lemmas every invariant is derived from. -/

namespace Sys2Proof.Machine

/-- The shapes of an instruction's effect: what `exec` can make of a state. -/
inductive Shape (s : State) : Instr → State → Prop where
  /-- A register is written and the pc advances. -/
  | result {i : Instr} (rd : Reg) (v : Word) : writesOf i = [rd] → Shape s i (writeResult s rd v)
  /-- A word is stored and the pc advances. -/
  | store (value base : Reg) (imm4 : BitVec 4) (a : Word) : effectiveAddress s base imm4 = a.toNat →
      Shape s (.st value base imm4) (s.memWrite a (s.reg value)).advance
  /-- The effective address is out of range. -/
  | address {i : Instr} (ea : Nat) : faultOf i s = some (.eaOutOfRange s.pc ea) → 0x10000 ≤ ea → ea ≤ 0x1000E →
      Shape s i (s.raise (.eaOutOfRange s.pc ea))
  /-- A branch is taken. -/
  | branch {i : Instr} (off8 : BitVec 8) : writesOf i = [] → faultOf i s = none →
      Shape s i (s.setPc (branchTarget s.pc off8))
  /-- A branch falls through. -/
  | fall {i : Instr} : writesOf i = [] → faultOf i s = none → Shape s i s.advance
  /-- `jal`. -/
  | link (t12 : BitVec 12) :
      Shape s (.jal t12) ((s.writeReg Config.link (linkValue s.pc)).jump (jalTarget s.pc t12))
  /-- `jr`. -/
  | jump (reg : Reg) : Shape s (.jr reg) (s.jump (s.reg reg))
  /-- `quit`. -/
  | halt : Shape s .quit s.halt

/-- A relative branch takes one of two shapes. -/
theorem branchIf_shape {s : State} {i : Instr} (taken : Bool) (off8 : BitVec 8) (hw : writesOf i = [])
    (hf : faultOf i s = none) : Shape s i (branchIf taken off8 s) := by
  cases taken
  · exact .fall hw hf
  · exact .branch off8 hw hf

/-- Every instruction answers a next state, of one of the shapes. -/
theorem exec_shape (i : Instr) (s : State) : ∃ t, exec i s = .next t ∧ Shape s i t := by
  cases i with
  | add rd _ _ => exact ⟨_, rfl, .result rd _ rfl⟩
  | sub rd _ _ => exact ⟨_, rfl, .result rd _ rfl⟩
  | and rd _ _ => exact ⟨_, rfl, .result rd _ rfl⟩
  | or rd _ _ => exact ⟨_, rfl, .result rd _ rfl⟩
  | not rd _ => exact ⟨_, rfl, .result rd _ rfl⟩
  | shl rd _ _ => exact ⟨_, rfl, .result rd _ rfl⟩
  | shr rd _ _ => exact ⟨_, rfl, .result rd _ rfl⟩
  | ldi rd _ => exact ⟨_, rfl, .result rd _ rfl⟩
  | ld rd base imm4 =>
    refine ⟨_, rfl, ?_⟩
    rcases withAddress_cases s base imm4 (fun a => writeResult s rd (s.memRead a)) with ⟨a, _, h⟩ | ⟨hgt, h⟩
    · rw [h]
      exact .result rd _ rfl
    · rw [h]
      exact .address _ (by simp [faultOf, hgt]) hgt (effectiveAddress_le s base imm4)
  | st value base imm4 =>
    refine ⟨_, rfl, ?_⟩
    rcases withAddress_cases s base imm4 (fun a => (s.memWrite a (s.reg value)).advance) with ⟨a, ha, h⟩ | ⟨hgt, h⟩
    · rw [h]
      exact .store value base imm4 a ha
    · rw [h]
      exact .address _ (by simp [faultOf, hgt]) hgt (effectiveAddress_le s base imm4)
  | br off8 => exact ⟨_, rfl, branchIf_shape _ off8 rfl rfl⟩
  | bz test off8 => exact ⟨_, rfl, branchIf_shape _ off8 rfl rfl⟩
  | bn test off8 => exact ⟨_, rfl, branchIf_shape _ off8 rfl rfl⟩
  | jal t12 => exact ⟨_, rfl, .link t12⟩
  | jr reg => exact ⟨_, rfl, .jump reg⟩
  | quit => exact ⟨_, rfl, .halt⟩

/-- The shape of a given next state. -/
theorem shape_of_exec {i : Instr} {s t : State} (h : exec i s = .next t) : Shape s i t := by
  obtain ⟨t', h', hs⟩ := exec_shape i s
  rw [h'] at h
  cases h
  exact hs

/-- What a step can do (R100): nothing, the fetch fault, or the decoded instruction. -/
theorem step_cases {s t : State} (h : step s = .next t) :
    (s.enabled = false ∧ t = s) ∨
      (s.enabled = true ∧ s.fetch = none ∧ t = s.raise (.pcOutOfRange s.pc)) ∨
      (∃ w i, s.enabled = true ∧ s.fetch = some w ∧ decodeWord w = i ∧ Shape s i t) := by
  unfold step at h
  cases he : s.enabled with
  | false =>
    simp only [he, Bool.false_eq_true, if_false] at h
    cases h
    exact .inl ⟨rfl, rfl⟩
  | true =>
    simp only [he, if_true] at h
    cases hf : s.fetch with
    | none =>
      simp only [hf] at h
      cases h
      exact .inr (.inl ⟨rfl, rfl, rfl⟩)
    | some w =>
      simp only [hf] at h
      exact .inr (.inr ⟨w, _, rfl, rfl, rfl, shape_of_exec h⟩)

/-- No steps: the same state. -/
theorem afterSteps_zero {s t : State} : AfterSteps 0 s t ↔ t = s := by
  constructor
  · intro h
    cases h
    rfl
  · rintro rfl
    rfl

/-- One step and then the rest. -/
theorem afterSteps_succ {n : Nat} {s t : State} :
    AfterSteps (n + 1) s t ↔ ∃ u, step s = .next u ∧ AfterSteps n u t := by
  constructor
  · intro h
    cases ho : step s with
    | next u =>
      have hc : Sys2Proof.core.step s = .next u := ho
      simp only [AfterSteps, Host.Core.run, hc] at h
      exact ⟨u, rfl, h⟩
    | fault r =>
      have hc : Sys2Proof.core.step s = .fault r := ho
      simp [AfterSteps, Host.Core.run, hc] at h
    | refused r =>
      have hc : Sys2Proof.core.step s = .refused r := ho
      simp [AfterSteps, Host.Core.run, hc] at h
  · rintro ⟨u, hu, ht⟩
    have hc : Sys2Proof.core.step s = .next u := hu
    simp only [AfterSteps, Host.Core.run, hc]
    exact ht

/-- A fetch gives a word only from a present address in range (R44). -/
theorem State.fetch_eq_some {s : State} {w : Word} (h : s.fetch = some w) : s.pcOor = false ∧ s.lookup s.pc = some w := by
  simp only [State.fetch] at h
  split_ifs at h with ho
  exact ⟨by simpa using ho, h⟩

end Sys2Proof.Machine
end

