-- ==== Sys2Proof/Laws/Engine.lean ====
section
/-! SUPPORT. Sequences of steps and `run()`: what the loop does, and the induction over it, packaged once. -/

namespace Sys2Proof.Machine

/-- A property that every step keeps is kept by any number of steps. -/
theorem afterSteps_induction {P : State → Prop} (keep : ∀ s t, step s = .next t → P s → P t) {n : Nat} {s t : State}
    (h : AfterSteps n s t) (hp : P s) : P t := by
  induction n generalizing s with
  | zero => rwa [afterSteps_zero.1 h]
  | succ n ih =>
    obtain ⟨u, h1, h2⟩ := afterSteps_succ.1 h
    exact ih h2 (keep _ _ h1 hp)

/-- The state after a number of steps is one state. -/
theorem afterSteps_unique {n : Nat} {s t t' : State} (h : AfterSteps n s t) (h' : AfterSteps n s t') : t = t' := by
  unfold AfterSteps at h h'
  rw [h] at h'
  cases h'
  rfl

/-- Steps after steps. -/
theorem afterSteps_add {m n : Nat} {s t u : State} (h : AfterSteps m s t) (h' : AfterSteps n t u) :
    AfterSteps (m + n) s u := by
  induction m generalizing s with
  | zero =>
    rw [afterSteps_zero.1 h] at h'
    simpa using h'
  | succ m ih =>
    obtain ⟨v, h1, h2⟩ := afterSteps_succ.1 h
    rw [Nat.add_right_comm]
    exact afterSteps_succ.2 ⟨v, h1, ih h2⟩

/-- A state that a step leaves as it is stays so. -/
theorem afterSteps_fixed {s : State} (h : step s = .next s) (n : Nat) : AfterSteps n s s := by
  induction n with
  | zero => exact afterSteps_zero.2 rfl
  | succ n ih => exact afterSteps_succ.2 ⟨s, h, ih⟩

/-- A step leaves an engine that is not enabled as it is (R109). -/
theorem step_of_not_enabled {s : State} (h : s.enabled = false) : step s = .next s := by
  simp [step, h]

/-- No step changes the compiled flag (R28). -/
theorem step_compiled {s t : State} (h : step s = .next t) : t.compiled = s.compiled := by
  rcases step_cases h with ⟨_, rfl⟩ | ⟨_, _, rfl⟩ | ⟨_, _, _, _, _, hs⟩
  · rfl
  · rfl
  · cases hs <;> rfl

/-- What the loop of `run()` does (R107): some number of steps, each from an enabled state, at most `fuel` of them, and fewer only
when the engine is no longer enabled. -/
theorem runLoop_spec (fuel : Nat) (s : State) :
    ∃ t n, runLoop fuel s = .next (t, n) ∧ n ≤ fuel ∧ AfterSteps n s t ∧
      (∀ m v, m < n → AfterSteps m s v → v.enabled = true) ∧ (n < fuel → t.enabled = false) := by
  induction fuel generalizing s with
  | zero => exact ⟨s, 0, rfl, le_refl _, afterSteps_zero.2 rfl, by simp, by simp⟩
  | succ fuel ih =>
    cases he : s.enabled with
    | false => exact ⟨s, 0, by simp [runLoop, he], Nat.zero_le _, afterSteps_zero.2 rfl, by simp, fun _ => he⟩
    | true =>
      have ht : ∃ t, step s = .next t := by
        cases hf : s.fetch with
        | none => exact ⟨_, by simp [step, he, hf]; rfl⟩
        | some w =>
          obtain ⟨t, ht, _⟩ := exec_shape (decodeWord w) s
          exact ⟨t, by simp [step, he, hf, ht]⟩
      obtain ⟨t, ht⟩ := ht
      obtain ⟨u, n, h1, h2, h3, h4, h5⟩ := ih t
      refine ⟨u, n + 1, by simp [runLoop, he, ht, h1], by omega, afterSteps_succ.2 ⟨t, ht, h3⟩, ?_,
        fun h => h5 (by omega)⟩
      intro m v hm hv
      cases m with
      | zero =>
        rw [afterSteps_zero.1 hv]
        exact he
      | succ m =>
        obtain ⟨t', ht', hv'⟩ := afterSteps_succ.1 hv
        rw [ht] at ht'
        cases ht'
        exact h4 m v (by omega) hv'

/-- What `run()` does from an enabled state: the loop, then `afterLoop`. -/
theorem run_of_enabled (d : Bool) {s : State} (he : s.enabled = true) :
    ∃ t n, run d s = .next (afterLoop d t n) ∧ n ≤ Config.maxSteps ∧ AfterSteps n s t ∧
      (∀ m v, m < n → AfterSteps m s v → v.enabled = true) ∧ (n < Config.maxSteps → t.enabled = false) := by
  obtain ⟨t, n, h1, h2⟩ := runLoop_spec Config.maxSteps s
  exact ⟨t, n, by simp [run, he, h1], h2⟩

/-- A property that every step and every fault keep is kept by `run()`. -/
theorem run_induction {P : State → Prop} (keep : ∀ s t, step s = .next t → P s → P t)
    (raise : ∀ s f, P s → P (s.raise f)) {d : Bool} {s t : State} (h : run d s = .next t) (hp : P s) : P t := by
  cases he : s.enabled with
  | false =>
    simp only [run, he, Bool.false_eq_true, if_false] at h
    cases h
    exact hp
  | true =>
    obtain ⟨u, n, h1, _, h3, _, _⟩ := run_of_enabled d he
    rw [h1] at h
    cases h
    have hu := afterSteps_induction keep h3 hp
    unfold afterLoop
    split
    · exact raise _ _ hu
    · exact hu

end Sys2Proof.Machine
end

