-- ==== Sys2Proof/Laws/PerInstr.lean ====
section
/-! SUPPORT. Statements made per instruction: the opcode of the encoded word (R61, R73). -/

namespace Sys2Proof.Laws.EncodeOpcode

/-- The top four bits of the encoded word are the instruction's opcode: bits 15 to 12, "for all formats" (R61). -/
def Statement (i : Instr) : Prop := fieldOp (encode i) = opcode i

theorem add (rd rs1 rs2 : Reg) : Statement (.add rd rs1 rs2) := fieldOp_packWord _ _
theorem sub (rd rs1 rs2 : Reg) : Statement (.sub rd rs1 rs2) := fieldOp_packWord _ _
theorem and (rd rs1 rs2 : Reg) : Statement (.and rd rs1 rs2) := fieldOp_packWord _ _
theorem or (rd rs1 rs2 : Reg) : Statement (.or rd rs1 rs2) := fieldOp_packWord _ _
theorem not (rd rs1 : Reg) : Statement (.not rd rs1) := fieldOp_packWord _ _
theorem shl (rd rs1 rs2 : Reg) : Statement (.shl rd rs1 rs2) := fieldOp_packWord _ _
theorem shr (rd rs1 rs2 : Reg) : Statement (.shr rd rs1 rs2) := fieldOp_packWord _ _
theorem ldi (rd : Reg) (imm8 : BitVec 8) : Statement (.ldi rd imm8) := fieldOp_packWord _ _
theorem ld (rd base : Reg) (imm4 : BitVec 4) : Statement (.ld rd base imm4) := fieldOp_packWord _ _
theorem st (value base : Reg) (imm4 : BitVec 4) : Statement (.st value base imm4) := fieldOp_packWord _ _
theorem br (off8 : BitVec 8) : Statement (.br off8) := fieldOp_packWord _ _
theorem bz (test : Reg) (off8 : BitVec 8) : Statement (.bz test off8) := fieldOp_packWord _ _
theorem bn (test : Reg) (off8 : BitVec 8) : Statement (.bn test off8) := fieldOp_packWord _ _
theorem jal (t12 : BitVec 12) : Statement (.jal t12) := fieldOp_packWord _ _
theorem jr (reg : Reg) : Statement (.jr reg) := fieldOp_packWord _ _
theorem quit : Statement .quit := fieldOp_packWord _ _

end Sys2Proof.Laws.EncodeOpcode
end

