-- ==== Sys2Proof/Tests/Slice0.lean ====
section
/-! SUPPORT. The model's own tests: what well-formedness refuses, decoding of words written out from the encoding tables, at
most two one-step tests an instruction, the assembler, and a witness for every statement that has hypotheses. Expected values
are those of spec/95_test_vectors.md; the section or example is named at each test. -/

namespace Sys2Proof.Tests

open Sys2Proof Sys2Proof.Machine

/-! ### Helpers -/

/-- A Running engine at `pc` with some registers set and some words in memory. -/
def at_ (pc : Word) (regs : List (Reg × Word)) (mem : Memory) : State :=
  regs.foldl (fun s p => s.writeReg p.1 p.2)
    { State.reset with pc := pc, runState := .running, compiled := true, mem := mem }

/-- The state of a next outcome. -/
def nextOf : Host.Outcome State Fault Refusal → Option State
  | .next t => some t
  | .fault _ => none
  | .refused _ => none

/-- The outcome of a step over the word `w` at `pc`, seen through `f`. -/
def stepOn {α : Type} (w : Word) (pc : Word) (regs : List (Reg × Word)) (f : State → α) : Option α :=
  (nextOf (step (at_ pc regs [(pc.toNat, w)]))).map f

/-- The engine after loading the program `br 0` (P6). -/
def spin : State := Machine.loadImage [(0, 0xA000)] State.reset

/-- The engine after loading the program `quit`. -/
def quits : State := Machine.loadImage [(0, 0xF000)] State.reset

/-- The engine after loading P5, which runs off the end of its image. -/
def runsOff : State := Machine.loadImage [(0, 0x7101)] State.reset

/-! ### Well-formedness refuses an ill-formed term, for each check (vectors 2.1, assembler refusals) -/

theorem test_wf_fitsLdi : fitsLdi 255 = true ∧ fitsLdi (-128) = true ∧ fitsLdi 256 = false ∧ fitsLdi (-129) = false := by
  decide

theorem test_wf_fitsImm4 : fitsImm4 15 = true ∧ fitsImm4 16 = false ∧ fitsImm4 (-1) = false := by decide

theorem test_wf_fitsOffset : fitsOffset 255 = true ∧ fitsOffset (-128) = true ∧ fitsOffset 256 = false ∧
    fitsOffset (-129) = false := by decide

theorem test_wf_fitsTarget : fitsTarget 0xFFF = true ∧ fitsTarget 0x1000 = false ∧ fitsTarget (-1) = false := by decide

theorem test_wf_fitsData : fitsData 65535 = true ∧ fitsData (-32768) = true ∧ fitsData 65536 = false ∧
    fitsData (-32769) = false := by decide

theorem test_wf_canonicalWord : canonicalWord 0x4310 = true ∧ canonicalWord 0x431F = false ∧ canonicalWord 0xA01F = false ∧
    canonicalWord 0xEABC = false ∧ canonicalWord 0xF123 = false := by decide

/-! ### Decoding words written out from the encodings (R62 to R72; vectors 2.1, 2.2) -/

theorem test_decode_arith : decodeWord 0b0000_0011_0001_0010 = .add 3 1 2 ∧ decodeWord 0b0001_0011_0001_0010 = .sub 3 1 2 ∧
    decodeWord 0b0010_0011_0001_0010 = .and 3 1 2 ∧ decodeWord 0b0011_0011_0001_0010 = .or 3 1 2 := by decide

theorem test_decode_not : decodeWord 0b0100_0011_0001_0000 = .not 3 1 ∧ decodeWord 0x431F = .not 3 1 := by decide

theorem test_decode_shifts : decodeWord 0b0101_0011_0001_0010 = .shl 3 1 2 ∧
    decodeWord 0b0110_0011_0001_0010 = .shr 3 1 2 := by decide

theorem test_decode_ldi : decodeWord 0b0111_0000_1111_1111 = .ldi 0 255 ∧ decodeWord 0b0111_0000_1000_0000 = .ldi 0 128 := by
  decide

theorem test_decode_ld : decodeWord 0b1000_0011_1111_0100 = .ld 3 4 15 ∧ decodeWord 0x8340 = .ld 3 0 4 := by decide

theorem test_decode_st : decodeWord 0b1001_1111_0111_1000 = .st 7 8 15 ∧ decodeWord 0x9334 = .st 3 4 3 := by decide

theorem test_decode_br : decodeWord 0b1010_1111_1101_0000 = .br 0xFD ∧ decodeWord 0xA01F = .br 1 := by decide

theorem test_decode_bz_bn : decodeWord 0b1011_1111_1110_1111 = .bz 15 0xFE ∧
    decodeWord 0b1100_0000_0010_0001 = .bn 1 2 := by decide

theorem test_decode_jal : decodeWord 0b1101_0010_0011_0100 = .jal 0x234 ∧ decodeWord 0xDFFF = .jal 0xFFF := by decide

theorem test_decode_jr : decodeWord 0b1110_0000_1111_0000 = .jr 15 ∧ decodeWord 0xEABC = .jr 11 := by decide

theorem test_decode_quit : decodeWord 0b1111_0000_0000_0000 = .quit ∧ decodeWord 0xF123 = .quit := by decide

/-- An instruction is exactly one word (R60). -/
theorem test_decode_rejects_by_name : decode [] = .error .noWord ∧ decode [0, 0] = .error .extraWords ∧
    decode [0xF000] = .ok .quit := by decide

theorem test_decodeTableWord : decodeTableWord 16 0x9334 = some (.st 3 4 3) ∧ decodeTableWord 0 0 = none := by decide

/-- Encoding (vectors 2.1). -/
theorem test_encode : encode (.ldi 0 255) = 0x70FF ∧ encode (.ld 3 4 15) = 0x83F4 ∧ encode (.st 7 8 15) = 0x9F78 ∧
    encode (.bz 15 0xFE) = 0xBFEF ∧ encode (.jr 15) = 0xE0F0 ∧ encode .quit = 0xF000 := by decide

/-! ### One step of each instruction (vectors 2.3 to 2.7) -/

theorem test_add_wraps : stepOn 0x0312 0 [(1, 0xFFFF), (2, 1)] (fun t => (t.reg 3, t.pc)) = some (0, 1) := by decide

theorem test_add_same_register : stepOn 0x0111 0 [(1, 0x4001)] (fun t => t.reg 1) = some 0x8002 := by decide

theorem test_sub_wraps : stepOn 0x1312 0 [(1, 5), (2, 10)] (fun t => t.reg 3) = some 0xFFFB := by decide

theorem test_sub_overflow : stepOn 0x1312 0 [(1, 0x8000), (2, 1)] (fun t => t.reg 3) = some 0x7FFF := by decide

theorem test_and : stepOn 0x2312 0 [(1, 0xF0F0), (2, 0x3C3C)] (fun t => t.reg 3) = some 0x3030 := by decide

theorem test_or : stepOn 0x3312 0 [(1, 0xF0F0), (2, 0x3C3C)] (fun t => t.reg 3) = some 0xFCFC := by decide

theorem test_not : stepOn 0x4310 0 [(1, 0x1234)] (fun t => t.reg 3) = some 0xEDCB := by decide

theorem test_shl : stepOn 0x5312 0 [(1, 0x8001), (2, 1)] (fun t => t.reg 3) = some 0x0002 := by decide

/-- The open row `x[2] = 0xFFFF` under the three readings (vectors 2.3, second table). -/
theorem test_shl_readings : ([.four, .five, .sixteen].map fun b =>
    (shlWith b 3 1 2 (at_ 0 [(1, 0xFFFF), (2, 0xFFFF)] [])).reg 3) = [0x8000, 0, 0] := by decide

theorem test_shr_is_logical : stepOn 0x6312 0 [(1, 0x8000), (2, 1)] (fun t => t.reg 3) = some 0x4000 := by decide

/-- The open row `x[2] = 33` under the three readings (vectors 2.3, second table). -/
theorem test_shr_readings : ([.four, .five, .sixteen].map fun b =>
    (shrWith b 3 1 2 (at_ 0 [(1, 0x8000), (2, 33)] [])).reg 3) = [0x4000, 0x4000, 0] := by decide

theorem test_ldi : stepOn 0x7105 0 [(1, 0xABCD)] (fun t => t.reg 1) = some 0x0005 := by decide

/-- The open row 0x7280 under the two readings (vectors 2.4). -/
theorem test_ldi_readings : ([.zero, .sign].map fun e => (ldiWith e 2 0x80 (at_ 0 [] [])).reg 2) = [0x0080, 0xFF80] := by
  decide

/-- Absent reads 0, is no fault and stays absent (vectors 2.5). -/
theorem test_ld_absent : stepOn 0x8314 0 [(4, 0x20), (3, 0xFFFF)] (fun t => (t.reg 3, t.present 0x21, t.runState)) =
    some (0, false, .running) := by decide

theorem test_ld_out_of_range : stepOn 0x83F4 0 [(4, 0xFFF1)] (fun t => (t.pc, t.runState, t.lastFault)) =
    some (0, .halted, some (.eaOutOfRange 0 0x10000)) := by decide

theorem test_st_creates : stepOn 0x9334 0 [(3, 0xBEEF), (4, 0x20)] (fun t => (t.mem, t.pc)) =
    some ([(0, 0x9334), (0x23, 0xBEEF)], 1) := by decide

/-- Storing 0 still makes the address present (vectors 2.5). -/
theorem test_st_zero_is_present : stepOn 0x9034 0 [(4, 0x30)] (fun t => t.lookup 0x30) = some (some 0) := by decide

theorem test_br_back : stepOn 0xAC80 0x100 [] (fun t => t.pc) = some 0x00C8 := by decide

theorem test_br_below_zero : stepOn 0xAFF0 0 [] (fun t => (t.pc, t.pcOor)) = some (0xFFFF, true) := by decide

theorem test_bz_taken : stepOn 0xB041 3 [] (fun t => t.pc) = some 7 := by decide

theorem test_bz_not_taken : stepOn 0xB041 3 [(1, 0x8000)] (fun t => t.pc) = some 4 := by decide

theorem test_bn_taken : stepOn 0xC021 5 [(1, 0x8000)] (fun t => t.pc) = some 7 := by decide

theorem test_bn_not_taken : stepOn 0xC021 5 [(1, 0x7FFF)] (fun t => t.pc) = some 6 := by decide

theorem test_jal_bank : stepOn 0xD234 0x0FFF [] (fun t => (t.reg 15, t.pc)) = some (0x1000, 0x0234) := by decide

theorem test_jal_link_masked : stepOn 0xD000 0xFFFF [] (fun t => (t.reg 15, t.pc, t.pcOor)) =
    some (0, 0xF000, false) := by decide

theorem test_jr : stepOn 0xE0B0 0 [(11, 0xFFFF)] (fun t => (t.pc, t.pcOor)) = some (0xFFFF, false) := by decide

theorem test_quit : stepOn 0xF123 3 [] (fun t => (t.pc, t.runState, t.lastFault)) = some (3, .halted, none) := by decide

/-- The default advance from 0xFFFF does not wrap (R104, vectors 2.6). -/
theorem test_advance_at_top : stepOn 0x0000 0xFFFF [] (fun t => (t.pc, t.pcOor)) = some (0, true) := by decide

/-- A fetch of an absent address (vectors 2.7). -/
theorem test_fetch_absent : (nextOf (step (at_ 9 [] []))).map (fun t => (t.pc, t.runState, t.lastFault)) =
    some (9, .halted, some (.pcOutOfRange 9)) := by decide

/-- The instruction placed by `withFetchWord` is the one that runs. -/
theorem test_withFetchWord : (nextOf (step (State.reset.withFetchWord 16 0xD005))).map (fun t => (t.pc, t.reg 15)) =
    some (5, 1) := by decide

/-- The report of a step (R106). -/
theorem test_report : report quits = some (.executed 0 0xF000 .quit .halted) ∧
    report (at_ 9 [] []) = some (.faulted (.pcOutOfRange 9)) ∧ report State.reset = none := by decide

/-! ### Host operations -/

/-- P5: a run that ends in the fetch fault after one instruction. -/
theorem test_run_off_the_end : (nextOf (run false runsOff)).map (fun t => (t.pc, t.reg 1, t.lastFault)) =
    some (1, 1, some (.pcOutOfRange 1)) := by decide

/-- `reset()` at power-on stays Halted (vectors 2.7). -/
theorem test_reset_uncompiled : hostReset State.reset = State.reset := by decide

/-! ### The assembler -/

/-- P1, the source's example (S4). -/
theorem test_assemble_p1 : (Asm.assemble ".text\nmain:   ldi r1, 10\n ldi r2, 5\n add r3, r1, r2 // sum\n quit".toList).toOption.map
    Asm.Assembled.words = some [0x710A, 0x7205, 0x0312, 0xF000] := by decide

/-- S5: a data label is promoted by `dataBase`; and its dump (R97). -/
theorem test_assemble_data : (Asm.assemble "quit\n.data\nresult: .word -1".toList).toOption.map
    (fun a => (a.words, a.parsed.table, a.dump)) =
    some ([0xF000, 0xFFFF], [("result".toList, 1)],
      ["// .text".toList, "@0000 F000  // quit".toList, "// .data".toList, "@0001 FFFF  // result: .word -1".toList]) := by
  decide

/-- S9: an undefined label, with its address and its source line. -/
theorem test_undefined_label :
    Asm.assemble ".text\nquit\n\nbr nowhere".toList = .error ⟨.undefinedLabel "nowhere".toList, 1⟩ ∧
    Asm.Failure.line ⟨.undefinedLabel "nowhere".toList, 1⟩ (Asm.parse ".text\nquit\n\nbr nowhere".toList) = some 4 := by
  decide

/-- Refusals of vectors 2.1, last paragraph. -/
theorem test_refusals :
    Asm.encodeTokens [] 0 ["ldi".toList, "r0".toList, "256".toList] = .error ⟨.outOfRange 256, 0⟩ ∧
    Asm.encodeTokens [] 0 ["add".toList, "r1".toList, "r2".toList, "r16".toList] = .error ⟨.invalidRegister "r16".toList, 0⟩ ∧
    Asm.encodeTokens [] 0 ["not".toList, "r1".toList, "r2".toList, "r3".toList] = .error ⟨.wrongArgumentCount, 0⟩ ∧
    Asm.encodeTokens [] 0 ["jal".toList, "0x1000".toList] = .error ⟨.outOfRange 4096, 0⟩ ∧
    Asm.encodeTokens [] 0 ["ADD".toList] = .error ⟨.unknownMnemonic "ADD".toList, 0⟩ ∧
    Asm.encodeData 0 (some "65536".toList) = .error ⟨.outOfRange 65536, 0⟩ := by decide

/-- U18: a program line of separators only is no placeholder. -/
theorem test_separators_only : Asm.assemble "quit\n(,)".toList = .error ⟨.unknownMnemonic "(,)".toList, 1⟩ ∧
    Asm.encodeTokens [] 0 [] = .ok 0 := by decide

/-- P6's dump has no data segment (R97). -/
theorem test_dump_without_data : (Asm.assemble ".text\nspin:   br spin".toList).toOption.map Asm.Assembled.dump =
    some ["// .text".toList, "@0000 A000  // spin: br spin".toList] := by decide

/-- R82: a label defined twice is refused. -/
theorem test_duplicate_label : Asm.assemble "a: quit\na: quit".toList = .error ⟨.duplicateLabel "a".toList, 1⟩ := by decide

/-! ### Witnesses: a state and operands that meet all hypotheses of a statement, one for each clause -/

theorem spin_step : step spin = .next spin := rfl

theorem witness_StepRunsTheDecodedInstruction : quits.runState = .running ∧ quits.compiled = true ∧ quits.pcOor = false ∧
    quits.lookup quits.pc = some 0xF000 := by decide

theorem witness_FetchFaults_absent : (at_ 0xFFFF [] []).runState = .running ∧ (at_ 0xFFFF [] []).compiled = true ∧
    (at_ 0xFFFF [] []).lookup (at_ 0xFFFF [] []).pc = none := by decide

/-- Out of range although the address holds a word. -/
theorem witness_FetchFaults_outOfRange : ∃ s : State, s.runState = .running ∧ s.compiled = true ∧ s.pcOor = true ∧
    s.lookup s.pc = some 0x0000 := ⟨{ at_ 0 [] [(0, 0)] with pcOor := true }, by decide⟩

theorem witness_NotRunningIsTerminal : State.reset.runState = .halted ∧ State.reset.compiled = false ∧
    (quits.halt).runState = .halted ∧ quits.halt.compiled = true := by decide

/-- The least count that clears the result, and the largest. -/
theorem witness_ShiftsUnderEachReading : ∃ s : State, (s.reg 1).toNat % 2 ^ Config.ShamtBits.five.bits = 16 ∧
    (s.reg 2).toNat % 2 ^ Config.ShamtBits.sixteen.bits = 0xFFFF ∧ (s.reg 2).toNat % 2 ^ Config.ShamtBits.four.bits = 15 :=
  ⟨at_ 0 [(1, 16), (2, 0xFFFF)] [], by decide⟩

/-- Both sides of the `ldi` clause, at its boundary. -/
theorem witness_LdiWritesTheWidenedImmediate : (0x7F : BitVec 8).toNat < 128 ∧ ¬ (0x80 : BitVec 8).toNat < 128 := by decide

theorem witness_OpenParameters : (0x7F : BitVec 8).toNat < 0x80 ∧ ((at_ 0 [(2, 15)] []).reg 2).toNat < 16 ∧
    0x80 ≤ (0x80 : BitVec 8).toNat := by decide

theorem witness_LdReadsTheWordOrZero_present : ((at_ 0 [(4, 0xFFF0)] [(0xFFFF, 7)]).reg 4).toNat + (15 : BitVec 4).toNat =
    (0xFFFF : Word).toNat ∧ (at_ 0 [(4, 0xFFF0)] [(0xFFFF, 7)]).lookup 0xFFFF = some 7 := by decide

theorem witness_LdReadsTheWordOrZero_absent : ((at_ 0 [] []).reg 4).toNat + (0 : BitVec 4).toNat = (0 : Word).toNat ∧
    (at_ 0 [] []).lookup 0 = none := by decide

theorem witness_StWritesTheWord : ((at_ 0 [(4, 0xFFF0)] []).reg 4).toNat + (15 : BitVec 4).toNat = (0xFFFF : Word).toNat := by
  decide

/-- The least and the largest address above the space. -/
theorem witness_AddressAboveTheSpaceFaults : ((at_ 0 [(4, 0xFFF1)] []).reg 4).toNat + (15 : BitVec 4).toNat = 0x10000 ∧
    ((at_ 0 [(4, 0xFFFF)] []).reg 4).toNat + (15 : BitVec 4).toNat = 0x1000E ∧ 0xFFFF < 0x10000 := by decide

theorem witness_LoadReturnsTheStoredWord : ∃ (s t u : State) (a : Word), (s.reg 4).toNat + (15 : BitVec 4).toNat = a.toNat ∧
    exec (.st 4 4 15) s = .next t ∧ u.lookup a = t.lookup a ∧ (u.reg 5).toNat + (0 : BitVec 4).toNat = a.toNat :=
  ⟨at_ 0 [(4, 0xFFF0)] [], _, at_ 9 [(5, 0xFFFF)] [(0xFFFF, 0xFFF0)], 0xFFFF, by decide, rfl, by decide, by decide⟩

/-- P7's shape: the stored word stands where nothing stood, and another address has been stored to since. -/
theorem witness_StoredWord : ∃ (s t u : State) (a : Word), (s.reg 4).toNat + (0 : BitVec 4).toNat = a.toNat ∧
    exec (.st 3 4 0) s = .next t ∧ u.lookup a = t.lookup a ∧ u.mem ≠ t.mem ∧ u.pc = a ∧ u.pcOor = false ∧ u.enabled = true :=
  ⟨at_ 0 [(3, 0xF000), (4, 5)] [], _, at_ 5 [] [(5, 0xF000), (6, 1)], 5, by decide, rfl, by decide, by decide, by decide, by decide, by decide⟩

/-- The four cases of the two conditions, at their boundaries. -/
theorem witness_BzBn : ((0 : Word).toNat = 0 ∧ ¬ 0x8000 ≤ (0 : Word).toNat) ∧
    ((0x7FFF : Word).toNat ≠ 0 ∧ ¬ 0x8000 ≤ (0x7FFF : Word).toNat) ∧ 0x8000 ≤ (0x8000 : Word).toNat ∧
    ((at_ 0x100 [] []).pc.toNat : Int) + (if (0x80 : BitVec 8).toNat < 128 then ((0x80 : BitVec 8).toNat : Int)
      else ((0x80 : BitVec 8).toNat : Int) - 256) = 0x80 := by decide

theorem witness_JrReturnsAfterJal : ∃ s t : State, s.pc = 0xFFFF ∧ exec (.jal 0) s = .next t ∧ t.reg 15 = 0 :=
  ⟨at_ 0xFFFF [] [], _, by decide, rfl, by decide⟩

theorem witness_OnlyTheWrittenRegistersChange : ∃ s t : State, exec (.jal 0) s = .next t ∧ (14 : Reg) ∉ writesOf (.jal 0) :=
  ⟨spin, _, rfl, by decide⟩

theorem witness_UnreadRegistersDoNotMatter : ∃ s s' t t' : State, { s' with regs := s.regs } = s ∧ s' ≠ s ∧
    (∀ r ∈ readsOf (.add 3 1 2), s'.reg r = s.reg r) ∧ exec (.add 3 1 2) s = .next t ∧ exec (.add 3 1 2) s' = .next t' :=
  ⟨at_ 0 [(1, 5), (7, 1)] [], at_ 0 [(1, 5), (7, 2)] [], _, _, by decide, by decide, by decide, rfl, rfl⟩

/-- The same statement where the instruction faults. -/
theorem witness_UnreadRegistersDoNotMatter_fault : faultOf (.ld 3 4 15) (at_ 0 [(4, 0xFFF1), (3, 1)] []) ≠ none ∧
    faultOf (.ld 3 4 14) (at_ 0 [(4, 0xFFF1)] []) = none := by decide

theorem witness_NextPc : ∃ s t : State, exec (.st 3 4 15) s = .next t ∧ faultOf (.st 3 4 15) s ≠ none :=
  ⟨at_ 0 [(4, 0xFFF1)] [], _, rfl, by decide⟩

theorem witness_NextPc_fetch : ∃ s t : State, step s = .next t ∧ s.fetch = none := ⟨at_ 9 [] [], _, rfl, by decide⟩

theorem witness_OnlyStChangesMemory : ∃ s t : State, exec (.ld 3 4 0) s = .next t ∧
    ∀ value base imm4, Instr.ld 3 4 0 ≠ .st value base imm4 := ⟨spin, _, rfl, by intros; exact Instr.noConfusion⟩

theorem witness_FaultsArePrecise : ∃ s t : State, step s = .next t ∧ t.lastFault ≠ s.lastFault :=
  ⟨at_ 9 [] [], _, rfl, by decide⟩

/-- The default advance, and the farthest branch targets below and above the space. -/
theorem witness_OnlyAdvanceAndBranches : ∃ s t s' t' s'' t'' : State,
    (exec (.add 0 0 0) s = .next t ∧ s.pcOor = false ∧ t.pcOor = true) ∧
    (exec (.br 0x80) s' = .next t' ∧ s'.pcOor = false ∧ t'.pcOor = true ∧ nextPcOf (.br 0x80) s' = -128) ∧
    (exec (.bz 1 0x7F) s'' = .next t'' ∧ s''.pcOor = false ∧ t''.pcOor = true ∧ nextPcOf (.bz 1 0x7F) s'' = 0x1007E) :=
  ⟨at_ 0xFFFF [] [], _, at_ 0 [] [], _, at_ 0xFFFF [] [], _, ⟨rfl, by decide, by decide⟩,
    ⟨rfl, by decide, by decide, by decide⟩, rfl, by decide, by decide, by decide⟩

/-- A compile that succeeds, and one that fails. -/
theorem witness_RunStateTransitions_compile : ∃ t t' : State, hostOp (.compile "quit".toList) State.reset = .next t ∧
    t.runState = .running ∧ hostOp (.compile "nop".toList) quits = .next t' ∧ t'.runState = .halted :=
  ⟨_, _, rfl, by decide, rfl, by decide⟩

theorem witness_RunStateTransitions_operations : ∃ a b c d : State, hostOp (.loadImage [(0, 0xF000)]) State.reset = .next a ∧
    hostOp .reset a = .next b ∧ b.runState = .running ∧ hostOp .reset State.reset = .next c ∧ c.runState = .halted ∧
    hostOp .compileFailed a = .next d :=
  ⟨_, _, _, _, rfl, rfl, by decide, rfl, by decide, rfl⟩

/-- A step that halts by `quit`, one that halts by a fault, one that does not halt, and one that is Halted already. -/
theorem witness_RunStateTransitions_step : ∃ a b c d : State, hostOp .step quits = .next a ∧ a.runState = .halted ∧
    hostOp .step (at_ 9 [] []) = .next b ∧ b.runState = .halted ∧ quits.enabled = true ∧ (at_ 9 [] []).enabled = true ∧
    hostOp .step spin = .next c ∧ c.runState = .running ∧ hostOp .step a = .next d ∧ hostOp (.run true) a = .next d :=
  ⟨_, _, _, _, rfl, by decide, rfl, by decide, by decide, by decide, rfl, by decide, rfl, rfl⟩

theorem witness_RunStateTransitions_exec : ∃ t : State, exec (.add 0 0 0) spin = .next t ∧ Instr.add 0 0 0 ≠ .quit ∧
    faultOf (.add 0 0 0) spin = none := ⟨_, rfl, by decide, by decide⟩

theorem witness_CompiledFlagAndLastFault : ∃ s t u : State, step (at_ 9 [] []) = .next s ∧ s.lastFault ≠ none ∧
    hostOp .step s = .next t ∧ hostOp (.run false) s = .next t ∧ hostOp .reset s = .next u :=
  ⟨_, _, _, rfl, by decide, rfl, rfl, rfl⟩

theorem witness_PresentAddressesStayPresent : ∃ t u v : State, hostOp .step quits = .next t ∧ hostOp .reset quits = .next u ∧
    hostOp (.run false) quits = .next v ∧ quits.present 0 = true := ⟨_, _, _, rfl, rfl, rfl, by decide⟩

theorem witness_LoadImageReplacesEverything :
    ([(0, 0xF000), (0xFFFF, 0)] : List (Word × Word)).Pairwise (fun p q => p.1 ≠ q.1) := by decide

/-- A run that a `quit` ends. -/
theorem witness_run_quit : ∃ t : State, run false quits = .next t ∧ t.lastFault = none ∧ t.pc = 0 ∧ quits.runState = .running ∧
    quits.compiled = true := ⟨_, rfl, by decide, by decide, by decide, by decide⟩

/-- P6: a run that the cap ends, and the state that 10000 steps leave enabled. -/
theorem witness_run_cap (d : Bool) : AfterSteps 10000 spin spin ∧ spin.enabled = true ∧
    run d spin = .next (spin.raise (.stepCapReached 0)) := by
  have he : spin.enabled = true := by decide
  obtain ⟨t, n, h, _, hn, _, _⟩ := run_of_enabled d he
  rw [afterSteps_unique hn (afterSteps_fixed spin_step n)] at h
  refine ⟨afterSteps_fixed spin_step _, he, ?_⟩
  rw [h, afterLoop, he, Bool.true_or, if_pos rfl]
  rfl

theorem witness_RunEndsInOneOfFourWays : Inv quits ∧ quits.enabled = true ∧ ∃ t : State, run true quits = .next t :=
  ⟨⟨by decide, fun _ => by decide, fun _ => by decide, trivial, fun h => absurd h (by decide),
    fun h => absurd h (by decide)⟩, by decide, _, rfl⟩

theorem witness_StepKeepsTheInvariant : Inv quits ∧ ∃ t : State, step quits = .next t ∧ hostOp .step quits = .next t :=
  ⟨witness_RunEndsInOneOfFourWays.1, _, rfl, rfl⟩

theorem witness_CanonicalMemories : Memory.wf [(0, 0xF000), (0xFFFF, 0)] = true ∧
    Memory.wf [(1, 0), (0, 0)] = false ∧ Memory.wf [(0x10000, 0)] = false := by decide

/-- A report of an address fault. -/
theorem witness_ReportTellsWhatTheStepDid_address : ∃ s : State, s.enabled = true ∧ s.fetch = some 0x83F4 ∧
    faultOf (decodeWord 0x83F4) s = some (.eaOutOfRange 0 0x10000) ∧
    report s = some (.faulted (.eaOutOfRange 0 0x10000)) := ⟨at_ 0 [(4, 0xFFF1)] [(0, 0x83F4)], by decide⟩

/-- Every other form of a report that evaluates without an open value. -/
theorem witness_ReportTellsWhatTheStepDid : (at_ 9 [] []).enabled = true ∧
    report (at_ 9 [] []) = some (.faulted (.pcOutOfRange 9)) ∧
    report (at_ 0 [(1, 2)] [(0, 0x0311)]) = some (.executed 0 0x0311 (.add 3 1 1) (.regWritten 3 4)) ∧
    report (at_ 0 [(4, 8)] [(0, 0x9044)]) = some (.executed 0 0x9044 (.st 4 4 0) (.memWritten 8 8)) ∧
    report spin = some (.executed 0 0xA000 (.br 0) (.newPc 0)) ∧
    report quits = some (.executed 0 0xF000 .quit .halted) := by decide

theorem witness_RegisterTokens : Asm.parseReg "r15".toList = some 15 ∧ Asm.parseReg "r16".toList = none ∧
    Asm.parseReg "R0".toList = none ∧ Asm.parseReg "r00".toList = none := by decide

/-- A wrong count for each number of operands, the last two with an invalid register as well. -/
theorem witness_OperandCounts : ["r1".toList].length ≠ 3 ∧ "st".toList ∈ ["ld".toList, "st".toList] ∧
    Asm.encodeTokens [] 9 ["st".toList, "r1".toList] = .error ⟨.wrongArgumentCount, 9⟩ ∧
    Asm.encodeTokens [] 9 ["bz".toList, "r1".toList] = .error ⟨.wrongArgumentCount, 9⟩ ∧
    Asm.encodeTokens [] 9 ["jr".toList, "r16".toList, "r1".toList] = .error ⟨.wrongArgumentCount, 9⟩ ∧
    Asm.encodeTokens [] 9 ["quit".toList, "r16".toList] = .error ⟨.wrongArgumentCount, 9⟩ := by decide

/-- A line with tokens, and one without. -/
theorem witness_ProgramLines : Asm.encodeLine [] 0 "ld r1, r2(3)".toList = .ok 0x8132 ∧ "(,)".toList ≠ [] ∧
    Asm.tokens "(,)".toList = [] := by decide

/-- Literals at the ends of the ranges, and tokens that are no number. -/
theorem witness_literals : Asm.parseLiteral "-128".toList = some (-128) ∧ Asm.parseLiteral "0xFF".toList = some 255 ∧
    Asm.parseLiteral "256".toList = some 256 ∧ Asm.parseLiteral "0X1000".toList = some 4096 ∧
    Asm.parseLiteral "-0x1".toList = none ∧ Asm.parseLiteral "0b1".toList = none ∧ Asm.parseLiteral "loop".toList = none := by
  decide

/-- A label that the table has, at an address that every form masks, and one that it has not. -/
theorem witness_labels : Asm.addressOf [("L".toList, 0x1234)] "L".toList = some 0x1234 ∧
    Asm.addressOf [("L".toList, 0x1234)] "M".toList = none ∧ Asm.parseLiteral "L".toList = none ∧
    Asm.parseLiteral "M".toList = none ∧
    Asm.encodeTokens [("L".toList, 0x1234)] 5 ["jal".toList, "M".toList] = .error ⟨.undefinedLabel "M".toList, 5⟩ ∧
    Asm.encodeTokens [("L".toList, 0x1234)] 0 ["jal".toList, "L".toList] = .ok 0xD234 ∧
    Asm.encodeTokens [("L".toList, 0x1234)] 0 ["ldi".toList, "r1".toList, "low".toList, "L".toList] = .ok 0x7134 ∧
    Asm.encodeTokens [("L".toList, 0x1234)] 0 ["ldi".toList, "r1".toList, "high".toList, "L".toList] = .ok 0x7112 ∧
    Asm.encodeTokens [("L".toList, 7)] 3 ["bz".toList, "r1".toList, "L".toList] = .ok 0xB041 := by decide

theorem witness_CompiledImage : ∃ a, Asm.assemble "quit\n.data\n.word 7".toList = .ok a ∧ a.words.length ≤ 65536 ∧
    a.program = [0xF000] ∧ a.data = [7] := ⟨_, rfl, by decide, by decide, by decide⟩

theorem witness_CompiledImage_error : ∃ e, Asm.assemble "br nowhere".toList = .error e := ⟨_, rfl⟩

end Sys2Proof.Tests
end

section
/-! SUPPORT. The two statements of spec/00_scope.md: every host operation keeps the invariant (R9), and the
open parameters do not matter below their bound (R6). -/

namespace Sys2Proof.Machine

/-! ### Where the pc can be out of range (R25) -/

/-- `SetPC(n)` with `n` within a branch's reach of the space is out of range only near its two ends. -/
theorem PcSetTo.out_of_range {t : State} {n : Int} (h : PcSetTo t n) (hlo : -128 ≤ n) (hhi : n ≤ 0x1007E)
    (ho : t.pcOor = true) : t.pc.toNat ≤ 0x7E ∨ 0xFF80 ≤ t.pc.toNat := by
  obtain ⟨hpc, hoor⟩ := h
  have := hoor.1 ho
  omega

/-- The default advance stays within reach. -/
theorem State.advance_out_of_range (s : State) (ho : s.advance.pcOor = true) :
    s.advance.pc.toNat ≤ 0x7E ∨ 0xFF80 ≤ s.advance.pc.toNat := by
  have := s.pc.isLt
  exact s.advance_spec.out_of_range (by omega) (by omega) ho

/-- The target of a relative branch is within reach. -/
theorem branchTarget_bounds (pc : Word) (off8 : BitVec 8) :
    -128 ≤ branchTarget pc off8 ∧ branchTarget pc off8 ≤ 0x1007E := by
  have := pc.isLt
  have := sint8_bounds off8
  simp only [branchTarget]
  omega

/-! ### The invariant, by what an operation leaves -/

/-- Without a recorded fault there is nothing to explain. -/
theorem faultExplained_of_none {s : State} (h : s.lastFault = none) : FaultExplained s := by
  simp [FaultExplained, h]

/-- The invariant at power-on (R34, R190). -/
theorem inv_reset : Inv State.reset where
  memory := rfl
  running_compiled := nofun
  running_no_fault := nofun
  fault := faultExplained_of_none rfl
  uncompiled _ := rfl
  out_of_range := nofun

/-- Of a compiled engine without a recorded fault, the invariant speaks about memory and the pc alone. -/
theorem Inv.of_no_fault {t : State} (hc : t.compiled = true) (hf : t.lastFault = none) (hm : t.mem.wf = true)
    (ho : t.pcOor = true → t.pc.toNat ≤ 0x7E ∨ 0xFF80 ≤ t.pc.toNat) : Inv t where
  memory := hm
  running_compiled _ := hc
  running_no_fault _ := hf
  fault := faultExplained_of_none hf
  uncompiled h := by simp [hc] at h
  out_of_range := ho

/-- A compiled engine may take any fault that explains its stop (R167). -/
theorem Inv.raise {s : State} {f : ExecFault} (h : Inv s) (hc : s.compiled = true)
    (hf : FaultExplained (s.raise f)) : Inv (s.raise f) where
  memory := h.memory
  running_compiled := nofun
  running_no_fault := nofun
  fault := hf
  uncompiled hn := by simp [hc] at hn
  out_of_range := h.out_of_range

/-- An instruction that an enabled engine executes keeps the invariant, whichever shape its effect has. -/
theorem Inv.of_shape {s t : State} {i : Instr} (h : Inv s) (he : s.enabled = true) (hs : Shape s i t) : Inv t := by
  obtain ⟨hr, hc⟩ := s.enabled_iff.1 he
  have hf := h.running_no_fault hr
  cases hs with
  | result rd v => exact .of_no_fault hc hf h.memory (State.advance_out_of_range _)
  | store value base imm4 a =>
    exact .of_no_fault hc hf (State.wf_memWrite a _ h.memory) (State.advance_out_of_range _)
  | address ea _ hlo hhi => exact h.raise hc ⟨rfl, hlo, hhi⟩
  | branch off8 =>
    obtain ⟨hlo, hhi⟩ := branchTarget_bounds s.pc off8
    exact .of_no_fault hc hf h.memory ((s.setPc_spec _).out_of_range hlo hhi)
  | fall => exact .of_no_fault hc hf h.memory s.advance_out_of_range
  | link t12 => exact .of_no_fault hc hf h.memory nofun
  | jump reg => exact .of_no_fault hc hf h.memory nofun
  | halt => exact .of_no_fault hc hf h.memory h.out_of_range

/-! ### The invariant, operation by operation (R9) -/

/-- `step()` keeps the invariant. -/
theorem Inv.step {s t : State} (h : Inv s) (hst : Machine.step s = .next t) : Inv t := by
  rcases step_cases hst with ⟨_, rfl⟩ | ⟨he, hnone, rfl⟩ | ⟨_, _, he, _, _, hs⟩
  · exact h
  · exact h.raise (s.enabled_iff.1 he).2 ⟨rfl, hnone⟩
  · exact h.of_shape he hs

/-- What `run()` does after its loop keeps the invariant of a compiled engine: the cap fault names the pc (R162). -/
theorem Inv.afterLoop {s : State} (h : Inv s) (hc : s.compiled = true) (d : Bool) (n : Nat) :
    Inv (Machine.afterLoop d s n) := by
  unfold Machine.afterLoop
  split
  · exact h.raise hc rfl
  · exact h

/-- `run()` keeps the invariant: it is steps, none of which clears the compiled flag, and then `afterLoop`. -/
theorem Inv.run {s t : State} {d : Bool} (h : Inv s) (hrun : Machine.run d s = .next t) : Inv t := by
  cases he : s.enabled with
  | false =>
    simp only [Machine.run, he, Bool.false_eq_true, if_false] at hrun
    cases hrun
    exact h
  | true =>
    obtain ⟨u, n, hu, _, hsteps, _, _⟩ := run_of_enabled d he
    rw [hu] at hrun
    cases hrun
    have hInv : Inv u := afterSteps_induction (fun _ _ hst hi => hi.step hst) hsteps h
    have hc : u.compiled = true :=
      afterSteps_induction (P := fun v => v.compiled = true) (fun _ _ hst hv => (step_compiled hst).trans hv)
        hsteps (s.enabled_iff.1 he).2
    exact hInv.afterLoop hc d n

/-- After `load_image` the invariant holds, whatever held before (R192). -/
theorem inv_loadImage (image : List (Word × Word)) (s : State) : Inv (loadImage image s) :=
  .of_no_fault rfl rfl (Memory.wf_ofImage image) nofun

/-- A failed compile leaves the power-on state (R193). -/
theorem compileFailed_eq_reset (s : State) : compileFailed s = State.reset := rfl

/-- After a failed compile the invariant holds, whatever held before. -/
theorem inv_compileFailed (s : State) : Inv (compileFailed s) := compileFailed_eq_reset s ▸ inv_reset

/-- `reset()` keeps the invariant: of a compiled engine it keeps the memory, and one that is not compiled stands at
power-on already (R190, R191). -/
theorem Inv.hostReset {s : State} (h : Inv s) : Inv (Machine.hostReset s) := by
  cases hc : s.compiled with
  | false =>
    rw [h.uncompiled hc]
    exact inv_reset
  | true => exact .of_no_fault hc rfl h.memory nofun

/-- A compile that answers has loaded an image or failed (R9). -/
theorem compile_cases {src : Asm.Text} {s t : State} (h : compile src s = .next t) :
    t = compileFailed s ∨ ∃ image, t = loadImage image s := by
  unfold compile at h
  split at h
  · cases h
    exact .inl rfl
  · split at h
    · cases h
      exact .inr ⟨_, rfl⟩
    · cases h

/-- Settles O49, operation by operation: `step()` and `run()` by the shapes of an instruction, the others by the state
that they leave. -/
theorem hostOperationsKeepTheInvariant : Obligations.HostOperationsKeepTheInvariant := by
  intro op s t h hop
  cases op with
  | compile src =>
    rcases compile_cases hop with rfl | ⟨image, rfl⟩
    · exact inv_compileFailed s
    · exact inv_loadImage image s
  | loadImage image =>
    cases hop
    exact inv_loadImage image s
  | compileFailed =>
    cases hop
    exact inv_compileFailed s
  | reset =>
    cases hop
    exact h.hostReset
  | step => exact h.step hop
  | run d => exact h.run hop

/-! ### The open parameters (R6) -/

/-- Below 0x80 the value of `ldi` is the immediate, under either reading. -/
theorem ldiValue_of_lt (e : Config.LdiExt) {imm8 : BitVec 8} (h : imm8.toNat < 0x80) : ldiValue e imm8 = zext16 imm8 :=
  if_pos h

/-- From 0x80 on the reading `sign` adds 0xFF00 to the value of the reading `zero`. -/
theorem ldiValue_sign_of_ge {imm8 : BitVec 8} (h : 0x80 ≤ imm8.toNat) :
    ldiValue .sign imm8 = ldiValue .zero imm8 + 0xFF00 := by
  rw [ldiValue_sign, ldiValue_zero, sext8to16, if_neg (Nat.not_lt.2 h)]

/-- Below 16 the shift count is the amount, under every reading. -/
theorem shiftCount_of_lt (b : Config.ShamtBits) {amount : Word} (h : amount.toNat < 16) :
    shiftCount b amount = amount.toNat :=
  if_pos h

/-- Settles O18: below the bounds the value and the count are the operand itself; at and beyond them they differ. -/
theorem openParametersMatterOnlyBeyondTheirBound : Obligations.OpenParametersMatterOnlyBeyondTheirBound := by
  refine ⟨fun e e' rd imm8 s h => ?_, fun b b' rd rs1 rs2 s h => ?_, fun imm8 h heq => ?_, by decide, by decide⟩
  · simp only [ldiWith, ldiValue_of_lt _ h]
  · simp only [shlWith, shrWith, shiftCount_of_lt _ h, and_self]
  · rw [ldiValue_sign_of_ge h, BitVec.self_eq_add_right] at heq
    exact absurd heq (by decide)

end Sys2Proof.Machine
end

section
/-! SUPPORT. The statements of spec/10_state.md: what an instruction reads, writes and does to the pc (R22 to R25), the
run state, the compiled flag and the recorded fault across operations (R27 to R29), and the memory image (R35). -/

namespace Sys2Proof.Machine

/-! ### The invariant (R25 to R29, R34) -/

/-- Settles O47: the power-on state has no fault, is not Running and has an empty memory (`inv_reset`). -/
theorem invariantHoldsAtReset : Obligations.InvariantHoldsAtReset := inv_reset

/-- Settles O48, by the shapes of an instruction's effect (`Inv.of_shape`) and the fetch fault. -/
theorem stepKeepsTheInvariant : Obligations.StepKeepsTheInvariant := fun _ _ h hst => h.step hst

/-! ### The memory image (R35) -/

theorem Memory.wfFrom_cons {lo a : Nat} {w : Word} {m : Memory} :
    Memory.wfFrom lo ((a, w) :: m) = true ↔ lo ≤ a ∧ a < Config.addressSpace ∧ m.wfFrom (a + 1) = true := by
  simp [Memory.wfFrom, and_assoc]

@[simp] theorem Memory.lookup_nil (a : Nat) : Memory.lookup [] a = none := rfl

theorem Memory.lookup_cons (b : Nat) (w : Word) (m : Memory) (a : Nat) :
    Memory.lookup ((b, w) :: m) a = if a = b then some w else m.lookup a := rfl

/-- The first address of a canonical memory is its least present one. -/
theorem Memory.head_le_of_lookup {lo a b : Nat} {v w : Word} {m : Memory} (hm : Memory.wfFrom lo ((b, w) :: m) = true)
    (h : Memory.lookup ((b, w) :: m) a = some v) : b ≤ a := by
  by_contra hlt
  obtain ⟨_, hspace, htail⟩ := Memory.wfFrom_cons.1 hm
  have hfrom : Memory.wfFrom b ((b, w) :: m) = true := Memory.wfFrom_cons.2 ⟨le_refl b, hspace, htail⟩
  rw [Memory.lookup_below hfrom (Nat.not_le.1 hlt)] at h
  cases h

/-- Canonical memories that read equal are equal: their least addresses are the same, with the same word, and so on. -/
theorem Memory.eq_of_lookup_eq {m m' : Memory} {lo lo' : Nat} (hm : m.wfFrom lo = true) (hm' : m'.wfFrom lo' = true)
    (h : ∀ a, m.lookup a = m'.lookup a) : m = m' := by
  induction m generalizing m' lo lo' with
  | nil =>
    cases m' with
    | nil => rfl
    | cons cell' m' =>
      obtain ⟨b, v⟩ := cell'
      simpa [Memory.lookup_cons] using h b
  | cons cell m ih =>
    obtain ⟨a, w⟩ := cell
    cases m' with
    | nil => simpa [Memory.lookup_cons] using h a
    | cons cell' m' =>
      obtain ⟨b, v⟩ := cell'
      have hw : Memory.lookup ((b, v) :: m') a = some w := by simp [← h a, Memory.lookup_cons]
      have hv : Memory.lookup ((a, w) :: m) b = some v := by simp [h b, Memory.lookup_cons]
      obtain rfl : a = b := le_antisymm (Memory.head_le_of_lookup hm hv) (Memory.head_le_of_lookup hm' hw)
      obtain rfl : v = w := by simpa [Memory.lookup_cons] using hw
      obtain ⟨_, _, htail⟩ := Memory.wfFrom_cons.1 hm
      obtain ⟨_, _, htail'⟩ := Memory.wfFrom_cons.1 hm'
      congr 1
      refine ih htail htail' fun c => ?_
      by_cases hc : c = a
      · rw [hc, Memory.lookup_below htail a.lt_succ_self, Memory.lookup_below htail' a.lt_succ_self]
      · simpa [Memory.lookup_cons, hc] using h c

/-- Settles O50, by induction on the two lists. -/
theorem canonicalMemoriesAreEqualWhenTheyReadEqual : Obligations.CanonicalMemoriesAreEqualWhenTheyReadEqual :=
  fun _ _ hm hm' h => Memory.eq_of_lookup_eq hm hm' h

/-! ### The registers an instruction writes (R22, R23) -/

/-- Settles O30, by the shapes of an instruction's effect. -/
theorem onlyTheWrittenRegistersChange : Obligations.OnlyTheWrittenRegistersChange := by
  intro i s t h r hr
  cases shape_of_exec h with
  | result rd v hw =>
    obtain ⟨_, hothers, _⟩ := writeResult_spec s rd v
    exact hothers r (by simpa [hw] using hr)
  | link t12 =>
    have hlink : r ≠ Config.link := by simpa [writesOf] using hr
    simp [hlink]
  | store | address | branch | fall | jump | halt => rfl

/-! ### Faults of an instruction -/

/-- An instruction that takes a fault does nothing else (R167). -/
theorem exec_of_fault {i : Instr} {s : State} {f : ExecFault} (h : faultOf i s = some f) :
    exec i s = .next (s.raise f) := by
  cases i with
  | ld rd base imm4 =>
    simp only [faultOf] at h
    split_ifs at h with hgt
    cases h
    exact congrArg _ (withAddress_of_gt _ hgt)
  | st value base imm4 =>
    simp only [faultOf] at h
    split_ifs at h with hgt
    cases h
    exact congrArg _ (withAddress_of_gt _ hgt)
  | _ => cases h

/-- The state that an instruction leaves when it takes a fault. -/
theorem eq_raise_of_fault {i : Instr} {s t : State} {f : ExecFault} (h : exec i s = .next t)
    (hf : faultOf i s = some f) : t = s.raise f := by
  rw [exec_of_fault hf] at h
  cases h
  rfl

/-- `ld` takes no fault exactly when its effective address lies in the space (R46, R164). -/
theorem faultOf_ld_eq_none_iff {s : State} {rd base : Reg} {imm4 : BitVec 4} :
    faultOf (.ld rd base imm4) s = none ↔ effectiveAddress s base imm4 ≤ 0xFFFF := by
  simp [faultOf]

/-- `st` takes no fault exactly when its effective address lies in the space (R46, R164). -/
theorem faultOf_st_eq_none_iff {s : State} {value base : Reg} {imm4 : BitVec 4} :
    faultOf (.st value base imm4) s = none ↔ effectiveAddress s base imm4 ≤ 0xFFFF := by
  simp [faultOf]

/-- At an effective address of the space the access is made. -/
theorem withAddress_eq_access {s : State} {base : Reg} {imm4 : BitVec 4} (access : Word → State)
    (h : effectiveAddress s base imm4 ≤ 0xFFFF) : ∃ a, withAddress s base imm4 access = access a := by
  rcases withAddress_cases s base imm4 access with ⟨a, _, ha⟩ | ⟨hgt, _⟩
  · exact ⟨a, ha⟩
  · exact absurd hgt (Nat.not_lt.2 h)

/-! ### The next pc (R24, R25, R148) -/

/-- An instruction other than `quit` that takes no fault does `SetPC` to the next pc of R148's table. -/
theorem exec_pcSetTo {i : Instr} {s t : State} (h : exec i s = .next t) (hf : faultOf i s = none) (hq : i ≠ .quit) :
    PcSetTo t (nextPcOf i s) := by
  cases i with
  | add rd _ _ | sub rd _ _ | and rd _ _ | or rd _ _ | not rd _ | shl rd _ _ | shr rd _ _ | ldi rd _ =>
    cases h
    exact (s.writeReg rd _).advance_spec
  | ld rd base imm4 =>
    obtain ⟨a, ha⟩ := withAddress_eq_access (fun a => writeResult s rd (s.memRead a)) (faultOf_ld_eq_none_iff.1 hf)
    cases h
    rw [ha]
    exact (s.writeReg rd _).advance_spec
  | st value base imm4 =>
    obtain ⟨a, ha⟩ :=
      withAddress_eq_access (fun a => (s.memWrite a (s.reg value)).advance) (faultOf_st_eq_none_iff.1 hf)
    cases h
    rw [ha]
    exact (s.memWrite a _).advance_spec
  | br off8 =>
    cases h
    exact (branchIf_spec true off8 s).1
  | bz test off8 =>
    cases h
    have hpc := (branchIf_spec (isZero (s.reg test)) off8 s).1
    simp only [isZero_iff] at hpc
    exact hpc
  | bn test off8 =>
    cases h
    have hpc := (branchIf_spec (isNegative (s.reg test)) off8 s).1
    simp only [isNegative_iff] at hpc
    exact hpc
  | jal t12 =>
    cases h
    have hpc := (s.writeReg Config.link (linkValue s.pc)).jump_spec (jalTarget s.pc t12)
    rwa [toNat_jalTarget] at hpc
  | jr reg =>
    cases h
    exact s.jump_spec (s.reg reg)
  | quit => exact absurd rfl hq

/-- The pc after an instruction that takes no fault: `quit` leaves it, which is its next pc of R148 too. -/
theorem exec_pc {i : Instr} {s t : State} (h : exec i s = .next t) (hf : faultOf i s = none) :
    (t.pc.toNat : Int) = nextPcOf i s % 65536 := by
  by_cases hq : i = .quit
  · subst hq
    cases h
    have := s.pc.isLt
    simp only [State.halt_pc, nextPcOf]
    omega
  · exact (exec_pcSetTo h hf hq).1

/-- A step whose fetch gives nothing leaves the pc: it is the fetch fault or no step at all. -/
theorem step_pc_of_fetch_none {s t : State} (h : step s = .next t) (hf : s.fetch = none) : t.pc = s.pc := by
  rcases step_cases h with ⟨_, rfl⟩ | ⟨_, _, rfl⟩ | ⟨w, _, _, hw, _, _⟩
  · rfl
  · rfl
  · simp [hf] at hw

/-- Settles O32: `exec_pc` where no fault is taken; a fault leaves the pc (`eq_raise_of_fault`, `step_pc_of_fetch_none`). -/
theorem nextPcOfEveryInstruction : Obligations.NextPcOfEveryInstruction := by
  refine ⟨fun i s t h => ⟨exec_pc h, fun hf => ?_⟩, fun s t => step_pc_of_fetch_none⟩
  obtain ⟨f, hf⟩ := Option.ne_none_iff_exists'.1 hf
  rw [eq_raise_of_fault h hf, State.raise_pc]

/-- The next pc of an instruction is the default advance, the target of a relative branch, or a word. -/
theorem nextPcOf_cases (i : Instr) (s : State) :
    nextPcOf i s = (s.pc.toNat : Int) + 1 ∨
      (((∃ o, i = .br o) ∨ (∃ r o, i = .bz r o) ∨ (∃ r o, i = .bn r o)) ∧
        ∃ o, nextPcOf i s = branchTarget s.pc o) ∨
      (0 ≤ nextPcOf i s ∧ nextPcOf i s ≤ 0xFFFF) := by
  cases i with
  | add | sub | and | or | not | shl | shr | ldi | ld | st => exact .inl rfl
  | br off8 => exact .inr (.inl ⟨.inl ⟨_, rfl⟩, off8, rfl⟩)
  | bz test off8 =>
    by_cases hz : (s.reg test).toNat = 0
    · exact .inr (.inl ⟨.inr (.inl ⟨_, _, rfl⟩), off8, if_pos hz⟩)
    · exact .inl (if_neg hz)
  | bn test off8 =>
    by_cases hn : 0x8000 ≤ (s.reg test).toNat
    · exact .inr (.inl ⟨.inr (.inr ⟨_, _, rfl⟩), off8, if_pos hn⟩)
    · exact .inl (if_neg hn)
  | jal | jr | quit =>
    refine .inr (.inr ?_)
    simp only [nextPcOf]
    omega

/-- An instruction that sets `pc_oor` has a next pc outside the space: neither a fault nor `quit` touches `pc_oor`. -/
theorem nextPcOf_of_pcOor_set {i : Instr} {s t : State} (h : exec i s = .next t) (hs : s.pcOor = false)
    (ht : t.pcOor = true) : nextPcOf i s < 0 ∨ 65535 < nextPcOf i s := by
  cases hf : faultOf i s with
  | some f =>
    rw [eq_raise_of_fault h hf, State.raise_pcOor, hs] at ht
    cases ht
  | none =>
    have hq : i ≠ .quit := by
      rintro rfl
      cases h
      rw [State.halt_pcOor, hs] at ht
      cases ht
    exact (exec_pcSetTo h hf hq).2.1 ht

/-- Settles O35, by what a next pc can be. -/
theorem onlyAdvanceAndBranchesLeaveTheAddressRange : Obligations.OnlyAdvanceAndBranchesLeaveTheAddressRange := by
  intro i s t h hs ht
  have hout := nextPcOf_of_pcOor_set h hs ht
  have hpc := s.pc.isLt
  rcases nextPcOf_cases i s with hadv | ⟨hbranch, o, ho⟩ | hword
  · exact .inl ⟨by omega, by bv_omega⟩
  · have := branchTarget_bounds s.pc o
    exact .inr ⟨hbranch, by omega⟩
  · omega

/-! ### Two runs of one instruction -/

section relate
variable {P : State → State → Prop} {s s' : State}

/-- Two accesses at the same effective address are related when what they do is, and when the faults are. -/
theorem withAddress_relate {base : Reg} {imm4 : BitVec 4} {access access' : Word → State}
    (hea : effectiveAddress s' base imm4 = effectiveAddress s base imm4)
    (haccess : ∀ a, P (access a) (access' a))
    (hfault : ∀ ea, 0xFFFF < effectiveAddress s base imm4 →
      P (s.raise (.eaOutOfRange s.pc ea)) (s'.raise (.eaOutOfRange s'.pc ea))) :
    P (withAddress s base imm4 access) (withAddress s' base imm4 access') := by
  simp only [withAddress, hea]
  split_ifs with hgt
  · exact hfault _ hgt
  · exact haccess _

/-- Two branches on the same condition are related when they are so taken and not taken. -/
theorem branchIf_relate {taken taken' : Bool} {off8 : BitVec 8} (htaken : taken' = taken)
    (hbranch : P (s.setPc (branchTarget s.pc off8)) (s'.setPc (branchTarget s'.pc off8)))
    (hfall : P s.advance s'.advance) : P (branchIf taken off8 s) (branchIf taken' off8 s') := by
  subst htaken
  cases taken'
  · exact hfall
  · exact hbranch

end relate

/-! ### The registers an instruction reads (R23) -/

/-- The two states differ in their registers alone. -/
def SameButRegs (s s' : State) : Prop := { s' with regs := s.regs } = s

namespace SameButRegs
variable {s s' : State} (h : SameButRegs s s')
include h

theorem pc : s'.pc = s.pc := by
  rw [← show { s' with regs := s.regs } = s from h]

theorem mem : s'.mem = s.mem := by
  rw [← show { s' with regs := s.regs } = s from h]

theorem memRead (a : Word) : s'.memRead a = s.memRead a := by simp only [State.memRead, State.lookup, h.mem]
theorem setPc (n : Int) : SameButRegs (s.setPc n) (s'.setPc n) := congrArg (State.setPc · n) h
theorem advance : SameButRegs s.advance s'.advance := congrArg State.advance h
theorem jump (a : Word) : SameButRegs (s.jump a) (s'.jump a) := congrArg (State.jump · a) h
theorem halt : SameButRegs s.halt s'.halt := congrArg State.halt h
theorem raise (f : ExecFault) : SameButRegs (s.raise f) (s'.raise f) := congrArg (State.raise · f) h
theorem memWrite (a v : Word) : SameButRegs (s.memWrite a v) (s'.memWrite a v) := congrArg (State.memWrite · a v) h
theorem writeReg (r : Reg) (v : Word) : SameButRegs (s.writeReg r v) (s'.writeReg r v) :=
  congrArg (State.writeReg · r v) h

theorem branchIf {taken taken' : Bool} (htaken : taken' = taken) (off8 : BitVec 8) :
    SameButRegs (Machine.branchIf taken off8 s) (Machine.branchIf taken' off8 s') :=
  branchIf_relate htaken (h.pc ▸ h.setPc _) h.advance

end SameButRegs

/-- What two runs of an instruction from states that differ in unread registers have in common. -/
def SameEffect (i : Instr) (s t t' : State) : Prop :=
  SameButRegs t t' ∧ (faultOf i s = none → ∀ r ∈ writesOf i, t'.reg r = t.reg r)

/-- The same value written to one register and the pc advanced. -/
theorem SameButRegs.writeResult {s s' : State} {i : Instr} {rd : Reg} {v v' : Word} (h : SameButRegs s s')
    (hw : writesOf i = [rd]) (hv : v' = v) : SameEffect i s (writeResult s rd v) (writeResult s' rd v') := by
  subst hv
  refine ⟨(h.writeReg rd v').advance, fun _ r hr => ?_⟩
  obtain rfl : r = rd := by simpa [hw] using hr
  simp [Machine.writeResult]

/-- An instruction that writes no register. -/
theorem SameButRegs.sameEffect {s t t' : State} {i : Instr} (h : SameButRegs t t') (hw : writesOf i = []) :
    SameEffect i s t t' :=
  ⟨h, fun _ r hr => by simp [hw] at hr⟩

/-- The effective address depends on the base register alone. -/
theorem effectiveAddress_congr {s s' : State} {base : Reg} (h : s'.reg base = s.reg base) (imm4 : BitVec 4) :
    effectiveAddress s' base imm4 = effectiveAddress s base imm4 := by
  simp only [effectiveAddress, h]

/-- Whether an instruction takes a fault, and which, depends on the pc and the registers it reads. -/
theorem faultOf_congr {i : Instr} {s s' : State} (hpc : s'.pc = s.pc) (hr : ∀ r ∈ readsOf i, s'.reg r = s.reg r) :
    faultOf i s' = faultOf i s := by
  cases i with
  | ld rd base imm4 => simp only [faultOf, effectiveAddress_congr (hr base (by simp [readsOf])), hpc]
  | st value base imm4 => simp only [faultOf, effectiveAddress_congr (hr base (by simp [readsOf])), hpc]
  | _ => rfl

/-- An instruction has the same effect from two states that differ in registers it does not read. -/
theorem exec_sameEffect {i : Instr} {s s' t t' : State} (hs : SameButRegs s s')
    (hr : ∀ r ∈ readsOf i, s'.reg r = s.reg r) (h : exec i s = .next t) (h' : exec i s' = .next t') :
    SameEffect i s t t' := by
  cases i with
  | add rd rs1 rs2 | sub rd rs1 rs2 | and rd rs1 rs2 | or rd rs1 rs2 | shl rd rs1 rs2 | shr rd rs1 rs2 =>
    cases h
    cases h'
    exact hs.writeResult rfl (by rw [hr rs1 (by simp [readsOf]), hr rs2 (by simp [readsOf])])
  | not rd rs1 =>
    cases h
    cases h'
    exact hs.writeResult rfl (by rw [hr rs1 (by simp [readsOf])])
  | ldi rd imm8 =>
    cases h
    cases h'
    exact hs.writeResult rfl rfl
  | ld rd base imm4 =>
    cases h
    cases h'
    refine withAddress_relate (effectiveAddress_congr (hr base (by simp [readsOf])) imm4)
      (fun a => hs.writeResult rfl (hs.memRead a)) fun ea hgt => ⟨hs.pc ▸ hs.raise _, fun hf => ?_⟩
    exact absurd hgt (Nat.not_lt.2 (faultOf_ld_eq_none_iff.1 hf))
  | st value base imm4 =>
    cases h
    cases h'
    refine SameButRegs.sameEffect ?_ rfl
    refine withAddress_relate (effectiveAddress_congr (hr base (by simp [readsOf])) imm4) (fun a => ?_)
      fun ea _ => hs.pc ▸ hs.raise _
    rw [hr value (by simp [readsOf])]
    exact (hs.memWrite a _).advance
  | br off8 =>
    cases h
    cases h'
    exact (hs.branchIf rfl off8).sameEffect rfl
  | bz test off8 | bn test off8 =>
    cases h
    cases h'
    exact (hs.branchIf (by rw [hr test (by simp [readsOf])]) off8).sameEffect rfl
  | jal t12 =>
    cases h
    cases h'
    rw [hs.pc]
    refine ⟨(hs.writeReg _ _).jump _, fun _ r hw => ?_⟩
    obtain rfl : r = Config.link := by simpa [writesOf] using hw
    simp
  | jr reg =>
    cases h
    cases h'
    rw [hr reg (by simp [readsOf])]
    exact (hs.jump _).sameEffect rfl
  | quit =>
    cases h
    cases h'
    exact hs.halt.sameEffect rfl

/-- Settles O31, instruction by instruction. -/
theorem unreadRegistersDoNotMatter : Obligations.UnreadRegistersDoNotMatter := by
  intro i s s' t t' hs hr h h'
  obtain ⟨hsame, hwritten⟩ := exec_sameEffect hs hr h h'
  exact ⟨hsame, faultOf_congr (SameButRegs.pc hs) hr, hwritten⟩

/-! ### The run state (R27) -/

/-- The two states differ in `run_state` alone. -/
def SameButRunState (s s' : State) : Prop := { s' with runState := s.runState } = s

/-- No instruction reads `run_state`: its effect on everything else is the same from either value. -/
theorem exec_with_runState {i : Instr} {s t : State} (r : RunState) (h : exec i s = .next t) :
    ∃ t', exec i { s with runState := r } = .next t' ∧ SameButRunState t t' := by
  cases i with
  | ld | st =>
    cases h
    exact ⟨_, rfl, withAddress_relate (P := SameButRunState) rfl (fun _ => rfl) fun _ _ => rfl⟩
  | bz | bn =>
    cases h
    exact ⟨_, rfl, branchIf_relate (P := SameButRunState) rfl rfl rfl⟩
  | _ =>
    cases h
    exact ⟨_, rfl, rfl⟩

/-- Without a fault only `quit` writes `run_state`. -/
theorem exec_runState {i : Instr} {s t : State} (h : exec i s = .next t) (hq : i ≠ .quit) (hf : faultOf i s = none) :
    t.runState = s.runState := by
  cases shape_of_exec h with
  | address ea hea => simp [hf] at hea
  | halt => exact absurd rfl hq
  | result | store | branch | fall | link | jump => rfl

/-- A step of an enabled engine that can fetch is its instruction (R100). -/
theorem step_of_fetch {s : State} {w : Word} (he : s.enabled = true) (hw : s.fetch = some w) :
    step s = exec (decodeWord w) s := by
  simp [step, he, hw]

/-- A step of an enabled engine halts it exactly by a `quit` or by a fault. -/
theorem step_halted_iff {s t : State} (h : step s = .next t) (he : s.enabled = true) :
    t.runState = .halted ↔ (∃ w, s.fetch = some w ∧ decodeWord w = .quit) ∨ ∃ f, FaultTaken f s t := by
  constructor
  · intro ht
    cases hw : s.fetch with
    | none =>
      simp only [step, he, hw, if_true] at h
      cases h
      exact .inr ⟨_, s.raise_spec _⟩
    | some w =>
      rw [step_of_fetch he hw] at h
      by_cases hq : decodeWord w = .quit
      · exact .inl ⟨w, rfl, hq⟩
      · cases hf : faultOf (decodeWord w) s with
        | none =>
          rw [exec_runState h hq hf, (s.enabled_iff.1 he).1] at ht
          cases ht
        | some f =>
          rw [eq_raise_of_fault h hf]
          exact .inr ⟨f, s.raise_spec f⟩
  · rintro (⟨w, hw, hq⟩ | ⟨f, hhalt, _⟩)
    · rw [step_of_fetch he hw, hq] at h
      cases h
      rfl
    · exact hhalt

/-- A `run()` leaves an engine that is not enabled as it is (R109). -/
theorem run_of_not_enabled (d : Bool) {s : State} (h : s.enabled = false) : run d s = .next s := by
  simp [run, h]

/-- A compiled engine that is not enabled is Halted. -/
theorem State.halted_of_not_enabled {s : State} (he : s.enabled = false) (hc : s.compiled = true) :
    s.runState = .halted := by
  cases hr : s.runState with
  | halted => rfl
  | running => simp [State.enabled, hr, hc] at he

/-- Any number of steps leave the compiled flag (R28). -/
theorem afterSteps_compiled {n : Nat} {s t : State} (h : AfterSteps n s t) : t.compiled = s.compiled :=
  afterSteps_induction (P := fun v => v.compiled = s.compiled) (fun _ _ hst hv => (step_compiled hst).trans hv) h rfl

/-- A `run()` of an enabled engine ends Halted (R107). -/
theorem run_halts {d : Bool} {s t : State} (h : run d s = .next t) (he : s.enabled = true) : t.runState = .halted := by
  obtain ⟨u, n, hu, _, hsteps, _, _⟩ := run_of_enabled d he
  rw [hu] at h
  cases h
  unfold afterLoop
  split_ifs with hcap
  · rfl
  · have hoff : u.enabled = false := by
      simp only [Bool.or_eq_true, not_or, Bool.not_eq_true] at hcap
      exact hcap.1
    exact State.halted_of_not_enabled hoff ((afterSteps_compiled hsteps).trans (s.enabled_iff.1 he).2)

/-- A compile that answers leaves the engine Running exactly when the program assembles. -/
theorem compile_running_iff {src : Asm.Text} {s t : State} (h : compile src s = .next t) :
    t.runState = .running ↔ ∃ a, Asm.assemble src = .ok a := by
  unfold compile at h
  split at h
  next e herr =>
    cases h
    simp [herr, compileFailed]
  next a hok =>
    split_ifs at h
    cases h
    simp [hok, loadImage]

/-- `reset()` leaves the engine Running exactly when it is compiled (R191). -/
theorem hostReset_running_iff (s : State) : (hostReset s).runState = .running ↔ s.compiled = true := by
  cases hc : s.compiled <;> simp [hostReset, hc]

/-- Settles O36, operation by operation. -/
theorem runStateTransitions : Obligations.RunStateTransitions := by
  refine ⟨fun src s t h => compile_running_iff h, fun image s t h => ?_, fun s t h => ?_, fun s t h => ?_,
    fun s t h he => step_halted_iff h he, fun s t d h hs => ?_, fun s t d h he => run_halts h he,
    fun i s t r h => ⟨exec_with_runState r h, exec_runState h⟩⟩
  · cases h
    rfl
  · cases h
    exact hostReset_running_iff s
  · cases h
    rfl
  · have hoff := State.enabled_of_halted hs
    rcases h with h | h
    · cases (step_of_not_enabled hoff).symm.trans h
      exact hs
    · cases (run_of_not_enabled d hoff).symm.trans h
      exact hs

/-! ### The compiled flag and the recorded fault (R28, R29) -/

/-- No step clears a recorded fault (R29). -/
theorem step_keeps_recorded_fault {s t : State} (h : step s = .next t) (hs : s.lastFault ≠ none) :
    t.lastFault ≠ none := by
  rcases step_cases h with ⟨_, rfl⟩ | ⟨_, _, rfl⟩ | ⟨_, _, _, _, _, hshape⟩
  · exact hs
  · simp
  · cases hshape with
    | address ea => simp
    | result | store | branch | fall | link | jump | halt => exact hs

/-- Settles O37: steps by their cases, runs by induction, the other operations by the state that they leave. -/
theorem compiledFlagAndLastFaultAcrossOperations : Obligations.CompiledFlagAndLastFaultAcrossOperations := by
  refine ⟨fun s t d h => ?_, fun s t h => ?_, fun image s t h => ?_, fun s t h => ?_⟩
  · rcases h with h | h
    · exact ⟨step_compiled h, step_keeps_recorded_fault h⟩
    · exact ⟨run_induction (P := fun v => v.compiled = s.compiled) (fun _ _ hst hv => (step_compiled hst).trans hv)
          (fun _ _ hv => hv) h rfl,
        run_induction (P := fun v => v.lastFault ≠ none) (fun _ _ hst => step_keeps_recorded_fault hst)
          (fun _ _ _ => nofun) h⟩
  all_goals
    cases h
    exact ⟨rfl, rfl⟩

end Sys2Proof.Machine
end

section
/-! SUPPORT. The statements of spec/20_memory.md: what `ld` and `st` do inside and above the address space (R46, R52), what
leaves memory alone (R49), presence (R42), and the image of a compile (R50, R57). -/

namespace Sys2Proof.Asm

/-- A source that assembles has passed both passes: its words are those of the items that pass 1 read, the data encoded from
`dataBase` up (R85, R95). -/
theorem assemble_eq_ok {src : Text} {a : Assembled} (h : assemble src = .ok a) :
    a.parsed = parse src ∧
      encodeFrom (fun k (x : ProgramItem) => encodeLine (parse src).table k x.text) 0 (parse src).program = .ok a.program ∧
      encodeFrom (fun k (x : DataItem) => encodeData k x.literal) (parse src).dataBase (parse src).data = .ok a.data := by
  simp only [assemble, Bind.bind, Except.bind, Pure.pure, Except.pure] at h
  split at h
  · cases h
  · split at h
    · cases h
    next program hprogram =>
      split at h
      · cases h
      next data hdata =>
        cases h
        exact ⟨rfl, hprogram, hdata⟩

/-- The segments of an assembled program have the lengths that pass 1 counted (R85). -/
theorem assemble_lengths {src : Text} {a : Assembled} (h : assemble src = .ok a) :
    a.program.length = (parse src).dataBase ∧ a.data.length = (parse src).data.length := by
  obtain ⟨_, hprogram, hdata⟩ := assemble_eq_ok h
  exact ⟨(encodeFrom_spec hprogram).1, (encodeFrom_spec hdata).1⟩

end Sys2Proof.Asm

namespace Sys2Proof.Machine

/-! ### Loads and stores (R46, R52) -/

section access
variable {s : State} {base : Reg} {imm4 : BitVec 4}

/-- `ld` at an address of the space reads the word there (R136). -/
theorem exec_ld_of_address {a : Word} (rd : Reg) (h : effectiveAddress s base imm4 = a.toNat) :
    exec (.ld rd base imm4) s = .next (writeResult s rd (s.memRead a)) :=
  congrArg Host.Outcome.next (withAddress_of_le _ h)

/-- `st` at an address of the space writes the word there (R137). -/
theorem exec_st_of_address {a : Word} (value : Reg) (h : effectiveAddress s base imm4 = a.toNat) :
    exec (.st value base imm4) s = .next (s.memWrite a (s.reg value)).advance :=
  congrArg Host.Outcome.next (withAddress_of_le _ h)

/-- `ld` above the space takes the address fault (R46, R164). -/
theorem faultOf_ld_of_gt (rd : Reg) (h : 0xFFFF < effectiveAddress s base imm4) :
    faultOf (.ld rd base imm4) s = some (.eaOutOfRange s.pc (effectiveAddress s base imm4)) := if_pos h

/-- `st` above the space takes the address fault (R46, R164). -/
theorem faultOf_st_of_gt (value : Reg) (h : 0xFFFF < effectiveAddress s base imm4) :
    faultOf (.st value base imm4) s = some (.eaOutOfRange s.pc (effectiveAddress s base imm4)) := if_pos h

end access

/-- A data read of a present address gives its word (R43). -/
theorem State.memRead_of_lookup {s : State} {a w : Word} (h : s.lookup a = some w) : s.memRead a = w := by
  simp [State.memRead, h]

/-- Settles O22: the store leaves its word at the address (`storeAdvance_spec`), and the load reads it there. -/
theorem loadReturnsTheStoredWord : Obligations.LoadReturnsTheStoredWord := by
  intro value base rd base' imm4 imm4' s a ha
  obtain ⟨hstored, _⟩ := storeAdvance_spec s a (s.reg value)
  refine ⟨_, exec_st_of_address value ha, fun u hu ha' => ⟨_, exec_ld_of_address rd ha', ?_⟩⟩
  rw [State.memRead_of_lookup (hu.trans hstored)]
  exact (writeResult_spec u rd (s.reg value)).1

/-- Settles O21: both instructions take the fault (`exec_of_fault`), and nothing else happens (`State.raise_spec`). -/
theorem addressAboveTheSpaceFaults : Obligations.AddressAboveTheSpaceFaults := by
  rintro r base imm4 s ea rfl hgt
  exact ⟨⟨_, exec_of_fault (faultOf_ld_of_gt r hgt), s.raise_spec _⟩,
    ⟨_, exec_of_fault (faultOf_st_of_gt r hgt), s.raise_spec _⟩⟩

/-! ### What leaves memory alone, and presence (R42, R45, R49) -/

/-- An instruction's effect leaves memory alone or is that of a store. -/
theorem Shape.sameMem_or_store {s t : State} {i : Instr} (h : Shape s i t) :
    SameMem s t ∨ ∃ value base imm4 a, i = .st value base imm4 ∧ t = (s.memWrite a (s.reg value)).advance := by
  cases h with
  | store value base imm4 a => exact .inr ⟨value, base, imm4, a, rfl, rfl⟩
  | result | address | branch | fall | link | jump | halt => exact .inl fun _ => rfl

/-- Settles O33: only a store does not leave memory alone (`Shape.sameMem_or_store`). -/
theorem onlyStChangesMemory : Obligations.OnlyStChangesMemory := by
  intro i s t h hst
  rcases (shape_of_exec h).sameMem_or_store with hsame | ⟨value, base, imm4, _, hi, _⟩
  · exact hsame
  · exact absurd hi (hst value base imm4)

/-- Where memory is the same the same addresses are present. -/
theorem SameMem.present {s t : State} (h : SameMem s t) (a : Word) : t.present a = s.present a :=
  congrArg Option.isSome (h a)

/-- A write makes its address present and no address absent (R45). -/
@[simp] theorem State.present_memWrite (s : State) (a v b : Word) :
    (s.memWrite a v).present b = (decide (b = a) || s.present b) := by
  by_cases hb : b = a <;> simp [State.present, hb]

/-- The advance of the pc leaves every address present or absent. -/
@[simp] theorem State.advance_present (s : State) (a : Word) : s.advance.present a = s.present a := rfl

/-- No instruction makes a present address absent. -/
theorem Shape.present {s t : State} {i : Instr} (h : Shape s i t) {a : Word} (ha : s.present a = true) :
    t.present a = true := by
  rcases h.sameMem_or_store with hsame | ⟨_, _, _, _, _, rfl⟩
  · rwa [hsame.present]
  · simp [ha]

/-- No step makes a present address absent. -/
theorem step_present {a : Word} (s t : State) (h : step s = .next t) (ha : s.present a = true) : t.present a = true := by
  rcases step_cases h with ⟨_, rfl⟩ | ⟨_, _, rfl⟩ | ⟨_, _, _, _, _, hs⟩
  · exact ha
  · exact ha
  · exact hs.present ha

/-- Settles O38: a step by `step_present`, a run by induction over its steps; `reset()` leaves memory alone. -/
theorem presentAddressesStayPresent : Obligations.PresentAddressesStayPresent := by
  rintro s t d (hstep | hrun | hreset) a ha
  · exact step_present s t hstep ha
  · exact run_induction (P := fun u => u.present a = true) step_present (fun _ _ hu => hu) hrun ha
  · cases hreset
    exact ha

/-! ### The image of a compile (R50, R57, R85) -/

/-- After an image from address 0 that fits the space is loaded, memory holds its words and nothing else (R50, R57). -/
theorem lookup_loadImage_image {a : Asm.Assembled} (hfit : a.words.length ≤ 65536) (s : State) (k : Word) :
    (loadImage a.image s).lookup k = a.words[k.toNat]? := by
  have hread := Asm.lookup_imageFrom a.words 0 [] k.toNat (by omega)
  rw [show (loadImage a.image s).lookup k = (Memory.ofImage a.image).lookup k.toNat from rfl, Memory.ofImage,
    Asm.Assembled.image, hread]
  by_cases hk : k.toNat < a.words.length <;> simp [hk]

/-- A compile of a source that assembles and fits the space loads its image (R57). -/
theorem compile_of_ok {src : Asm.Text} {a : Asm.Assembled} (h : Asm.assemble src = .ok a)
    (hfit : a.words.length ≤ 65536) (s : State) : compile src s = .next (loadImage a.image s) := by
  simp [compile, h, Config.addressSpace, hfit]

/-- A compile of a source that does not assemble leaves the power-on state (R193). -/
theorem compile_of_error {src : Asm.Text} {e : Asm.Failure} (h : Asm.assemble src = .error e) (s : State) :
    compile src s = .next State.reset := by
  simp [compile, h, compileFailed_eq_reset]

/-- Settles O57: the lengths from the two passes, the contents from the loaded image. -/
theorem compiledImageIsContiguousFromZero : Obligations.CompiledImageIsContiguousFromZero := by
  refine fun src s => ⟨fun a hok => ?_, fun e herr => compile_of_error herr s⟩
  obtain ⟨hprogram, hdata⟩ := Asm.assemble_lengths hok
  exact ⟨hprogram, hdata, fun hfit => ⟨_, compile_of_ok hok hfit s, lookup_loadImage_image hfit s⟩⟩

end Sys2Proof.Machine
end

section
/-! SUPPORT. The statements of spec/30_encoding.md about words: the decode table (R75), encoding and decoding back (R77),
the ignored bits (R62, D7) and the packing formulas (R65 to R70). -/

namespace Sys2Proof

/-- A bit vector is the one its number names. -/
theorem eq_ofNat_of_toNat_eq {n k : Nat} {x : BitVec n} (h : x.toNat = k) : x = BitVec.ofNat n k := by
  rw [← h, BitVec.ofNat_toNat, BitVec.setWidth_eq]

/-! ### The decode table, row by row, on packed fields (R75) -/

section rows
variable (a b c : BitVec 4)

theorem decodeWord_add : decodeWord (packWord 0x0 (pack444 a b c)) =
    .add (regOfField a) (regOfField b) (regOfField c) := by
  simp [decodeWord, fields_pack444]

theorem decodeWord_sub : decodeWord (packWord 0x1 (pack444 a b c)) =
    .sub (regOfField a) (regOfField b) (regOfField c) := by
  simp [decodeWord, fields_pack444]

theorem decodeWord_and : decodeWord (packWord 0x2 (pack444 a b c)) =
    .and (regOfField a) (regOfField b) (regOfField c) := by
  simp [decodeWord, fields_pack444]

theorem decodeWord_or : decodeWord (packWord 0x3 (pack444 a b c)) =
    .or (regOfField a) (regOfField b) (regOfField c) := by
  simp [decodeWord, fields_pack444]

theorem decodeWord_not : decodeWord (packWord 0x4 (pack444 a b c)) = .not (regOfField a) (regOfField b) := by
  simp [decodeWord, fields_pack444]

theorem decodeWord_shl : decodeWord (packWord 0x5 (pack444 a b c)) =
    .shl (regOfField a) (regOfField b) (regOfField c) := by
  simp [decodeWord, fields_pack444]

theorem decodeWord_shr : decodeWord (packWord 0x6 (pack444 a b c)) =
    .shr (regOfField a) (regOfField b) (regOfField c) := by
  simp [decodeWord, fields_pack444]

theorem decodeWord_ldi (v : BitVec 8) : decodeWord (packWord 0x7 (pack48 a v)) = .ldi (regOfField a) v := by
  simp [decodeWord, fields_pack48]

theorem decodeWord_ld : decodeWord (packWord 0x8 (pack444 a b c)) = .ld (regOfField a) (regOfField c) b := by
  simp [decodeWord, fields_pack444]

theorem decodeWord_st : decodeWord (packWord 0x9 (pack444 a b c)) = .st (regOfField b) (regOfField c) a := by
  simp [decodeWord, fields_pack444]

theorem decodeWord_br (v : BitVec 8) : decodeWord (packWord 0xA (pack84 v c)) = .br v := by
  simp [decodeWord, fields_pack84]

theorem decodeWord_bz (v : BitVec 8) : decodeWord (packWord 0xB (pack84 v c)) = .bz (regOfField c) v := by
  simp [decodeWord, fields_pack84]

theorem decodeWord_bn (v : BitVec 8) : decodeWord (packWord 0xC (pack84 v c)) = .bn (regOfField c) v := by
  simp [decodeWord, fields_pack84]

theorem decodeWord_jal (x : BitVec 12) : decodeWord (packWord 0xD x) = .jal x := by
  simp [decodeWord]

theorem decodeWord_jr : decodeWord (packWord 0xE (pack444 a b c)) = .jr (regOfField b) := by
  simp [decodeWord, fields_pack444]

theorem decodeWord_quit (x : BitVec 12) : decodeWord (packWord 0xF x) = .quit := by
  simp [decodeWord]

end rows

/-- Settles O1: an instruction's word is packed from its own fields, and its row of the decode table reads them back. -/
theorem decodeOfEncodeIsIdentity : Obligations.DecodeOfEncodeIsIdentity
  | .add _ _ _ => decodeWord_add _ _ _
  | .sub _ _ _ => decodeWord_sub _ _ _
  | .and _ _ _ => decodeWord_and _ _ _
  | .or _ _ _ => decodeWord_or _ _ _
  | .not _ _ => decodeWord_not _ _ _
  | .shl _ _ _ => decodeWord_shl _ _ _
  | .shr _ _ _ => decodeWord_shr _ _ _
  | .ldi _ _ => decodeWord_ldi _ _
  | .ld _ _ _ => decodeWord_ld _ _ _
  | .st _ _ _ => decodeWord_st _ _ _
  | .br _ => decodeWord_br _ _
  | .bz _ _ => decodeWord_bz _ _
  | .bn _ _ => decodeWord_bn _ _
  | .jal _ => decodeWord_jal _
  | .jr _ => decodeWord_jr _ _ _
  | .quit => decodeWord_quit _

/-! ### Two neighbouring 4-bit fields as one 8-bit field -/

theorem pack444_eq_pack48 (a b c : BitVec 4) : pack444 a b c = pack48 a (b ++ c) := BitVec.append_assoc

theorem pack444_eq_pack84 (a b c : BitVec 4) : pack444 a b c = pack84 (a ++ b) c := rfl

theorem append_nibbles_eq_ofNat (a b : BitVec 4) : a ++ b = BitVec.ofNat 8 (a.toNat * 16 + b.toNat) := by
  apply eq_ofNat_of_toNat_eq
  rw [BitVec.toNat_append, ← Nat.shiftLeft_add_eq_or_of_lt b.isLt, Nat.shiftLeft_eq]

theorem pack444_eq_ofNat (a b c : BitVec 4) :
    pack444 a b c = BitVec.ofNat 12 (a.toNat * 256 + b.toNat * 16 + c.toNat) :=
  eq_ofNat_of_toNat_eq (toNat_pack444 a b c)

/-- The word of four field values is packed from those fields (R61). -/
theorem wordOfFields_eq_packWord (op a b c : Fin 16) :
    Machine.wordOfFields op a b c = packWord (fieldOfReg op) (pack444 (fieldOfReg a) (fieldOfReg b) (fieldOfReg c)) := by
  refine (eq_ofNat_of_toNat_eq ?_).symm
  rw [toNat_packWord, toNat_pack444]
  simp only [toNat_fieldOfReg]
  omega

/-- Settles O3, row by row; the rows with an 8-bit or a 12-bit field read neighbouring 4-bit fields as one. -/
theorem decodeTableForEveryWord : Obligations.DecodeTableForEveryWord := by
  intro a b c
  have h8 (x y : Fin 16) : BitVec.ofNat 8 (x.val * 16 + y.val) = fieldOfReg x ++ fieldOfReg y :=
    (append_nibbles_eq_ofNat _ _).symm
  have h12 : BitVec.ofNat 12 (a.val * 256 + b.val * 16 + c.val) =
      pack444 (fieldOfReg a) (fieldOfReg b) (fieldOfReg c) := (pack444_eq_ofNat _ _ _).symm
  have h4 (x : Fin 16) : BitVec.ofNat 4 x.val = fieldOfReg x := (eq_ofNat_of_toNat_eq (toNat_fieldOfReg x)).symm
  simp only [wordOfFields_eq_packWord, h4, h8, h12]
  refine ⟨decodeWord_add _ _ _, decodeWord_sub _ _ _, decodeWord_and _ _ _, decodeWord_or _ _ _, decodeWord_not _ _ _,
    decodeWord_shl _ _ _, decodeWord_shr _ _ _, ?_, decodeWord_ld _ _ _, decodeWord_st _ _ _, decodeWord_br _ _,
    decodeWord_bz _ _, decodeWord_bn _ _, decodeWord_jal _, decodeWord_jr _ _ _, decodeWord_quit _⟩
  rw [pack444_eq_pack48]
  exact decodeWord_ldi _ _

/-! ### Ignored bits (R62, D7) -/

/-- The mask of significant bits depends on the opcode alone. -/
theorem significantMask_packWord (op : BitVec 4) (x : BitVec 12) :
    significantMask (packWord op x) = significantMask (packWord op 0) := by
  have hop (y : BitVec 12) : (packWord op y >>> 12).toNat = op.toNat := by
    rw [BitVec.toNat_ushiftRight, Nat.shiftRight_eq_div_pow, toNat_packWord]
    omega
  simp only [significantMask, hop]

theorem and_packWord (op op' : BitVec 4) (x x' : BitVec 12) :
    packWord op x &&& packWord op' x' = packWord (op &&& op') (x &&& x') := BitVec.and_append

theorem and_pack444 (a b c k l m : BitVec 4) :
    pack444 a b c &&& pack444 k l m = pack444 (a &&& k) (b &&& l) (c &&& m) :=
  BitVec.and_append.trans (congrArg (· ++ (c &&& m)) BitVec.and_append)

/-- A word whose opcode's mask keeps the opcode is masked field by field. -/
theorem and_significantMask {op k l m : BitVec 4}
    (hmask : significantMask (packWord op 0) = packWord (BitVec.allOnes 4) (pack444 k l m)) (a b c : BitVec 4) :
    packWord op (pack444 a b c) &&& significantMask (packWord op (pack444 a b c)) =
      packWord op (pack444 (a &&& k) (b &&& l) (c &&& m)) := by
  rw [significantMask_packWord, hmask, and_packWord, and_pack444, BitVec.and_allOnes]

/-- A word whose opcode's mask keeps every bit is its own canonical word. -/
theorem and_significantMask_of_ones {op : BitVec 4} (hmask : significantMask (packWord op 0) = BitVec.allOnes 16)
    (x : BitVec 12) : packWord op x &&& significantMask (packWord op x) = packWord op x := by
  rw [significantMask_packWord, hmask, BitVec.and_allOnes]

/-- Encoding what a word decodes to clears its ignored bits: by the opcode, the fields that its row reads are packed again
where they stood, and the others become 0. -/
theorem encode_decodeWord (w : Word) : encode (decodeWord w) = w &&& significantMask w := by
  rw [← packWord_nibbles w]
  generalize fieldA w = a, fieldB w = b, fieldC w = c
  match fieldOp w with
  | 0x0 => rw [decodeWord_add, and_significantMask_of_ones rfl]; rfl
  | 0x1 => rw [decodeWord_sub, and_significantMask_of_ones rfl]; rfl
  | 0x2 => rw [decodeWord_and, and_significantMask_of_ones rfl]; rfl
  | 0x3 => rw [decodeWord_or, and_significantMask_of_ones rfl]; rfl
  | 0x4 =>
    rw [decodeWord_not, and_significantMask (k := .allOnes 4) (l := .allOnes 4) (m := 0#4) rfl]
    simp only [BitVec.and_allOnes, BitVec.and_zero]; rfl
  | 0x5 => rw [decodeWord_shl, and_significantMask_of_ones rfl]; rfl
  | 0x6 => rw [decodeWord_shr, and_significantMask_of_ones rfl]; rfl
  | 0x7 => rw [pack444_eq_pack48, decodeWord_ldi, and_significantMask_of_ones rfl]; rfl
  | 0x8 => rw [decodeWord_ld, and_significantMask_of_ones rfl]; rfl
  | 0x9 => rw [decodeWord_st, and_significantMask_of_ones rfl]; rfl
  | 0xA =>
    rw [and_significantMask (k := .allOnes 4) (l := .allOnes 4) (m := 0#4) rfl, pack444_eq_pack84, decodeWord_br]
    simp only [BitVec.and_allOnes, BitVec.and_zero]; rfl
  | 0xB => rw [pack444_eq_pack84, decodeWord_bz, and_significantMask_of_ones rfl]; rfl
  | 0xC => rw [pack444_eq_pack84, decodeWord_bn, and_significantMask_of_ones rfl]; rfl
  | 0xD => rw [decodeWord_jal, and_significantMask_of_ones rfl]; rfl
  | 0xE =>
    rw [decodeWord_jr, and_significantMask (k := 0#4) (l := .allOnes 4) (m := 0#4) rfl]
    simp only [BitVec.and_allOnes, BitVec.and_zero]; rfl
  | 0xF =>
    rw [decodeWord_quit, and_significantMask (k := 0#4) (l := 0#4) (m := 0#4) rfl]
    simp only [BitVec.and_zero]; rfl
  | ⟨n + 16, h⟩ => exact absurd h (Nat.not_lt_of_ge (Nat.le_add_left 16 n))

/-- The canonical words are those that masking leaves as they are. -/
theorem canonicalWord_iff (w : Word) : canonicalWord w = true ↔ encode (decodeWord w) = w := by
  rw [canonicalWord, beq_iff_eq, encode_decodeWord]

/-- Settles O2: the masked word is the encoding of what the word decodes to, so it decodes to the same (O1). -/
theorem encodeOfDecodeClearsIgnoredBits : Obligations.EncodeOfDecodeClearsIgnoredBits := by
  refine fun w => ⟨encode_decodeWord w, ?_, canonicalWord_iff w⟩
  rw [← encode_decodeWord w, decodeOfEncodeIsIdentity]

/-! ### The packing formulas (R65, R66, R67, R70) -/

/-- The word that an instruction's packing formula gives, as a number, decodes to the instruction. -/
theorem decodeWord_ofNat_of_toNat_encode {i : Instr} {n : Nat} (h : (encode i).toNat = n) :
    decodeWord (BitVec.ofNat 16 n) = i := by
  rw [← eq_ofNat_of_toNat_eq h]
  exact decodeOfEncodeIsIdentity i

/-- Settles O4: the formulas by the sizes of the packed fields, their reading back by O1. -/
theorem packingFormulasOfImmediateFormats : Obligations.PackingFormulasOfImmediateFormats := by
  intro r q imm4 imm8 t12
  have hldi : (encode (.ldi r imm8)).toNat = 0x7 * 4096 + r.val * 256 + imm8.toNat := by
    rw [encode, toNat_packWord, operandBits, toNat_pack48, toNat_fieldOfReg, ← Nat.add_assoc]; rfl
  have hld : (encode (.ld r q imm4)).toNat = 0x8 * 4096 + r.val * 256 + imm4.toNat * 16 + q.val := by
    rw [encode, toNat_packWord, operandBits, toNat_pack444, ← Nat.add_assoc, ← Nat.add_assoc]; rfl
  have hst : (encode (.st r q imm4)).toNat = 0x9 * 4096 + imm4.toNat * 256 + r.val * 16 + q.val := by
    rw [encode, toNat_packWord, operandBits, toNat_pack444, ← Nat.add_assoc, ← Nat.add_assoc]; rfl
  have hjal : (encode (.jal t12)).toNat = 0xD * 4096 + t12.toNat := toNat_packWord _ _
  exact ⟨hldi, hld, hst, hjal, decodeWord_ofNat_of_toNat_encode hldi, decodeWord_ofNat_of_toNat_encode hld,
    decodeWord_ofNat_of_toNat_encode hst, decodeWord_ofNat_of_toNat_encode hjal⟩

end Sys2Proof
end

section
/-! SUPPORT. The statements of spec/30_encoding.md about the assembler: register tokens and operand counts (R86, R87), operand
values (R88 to R92, R94) and what a line assembles to (R93). -/

namespace Sys2Proof.Asm

/-! ### Register tokens (R87) -/

/-- A register token is `r` and the decimal index. -/
theorem parseReg_eq_some_iff {t : Text} {r : Reg} : parseReg t = some r ↔ t = 'r' :: (toString r.val).toList := by
  constructor
  · intro h
    unfold parseReg at h
    split at h <;> cases h <;> rfl
  · rintro rfl
    revert r
    decide

theorem regOperand_of_some {t : Text} {r : Reg} (address : Nat) (h : parseReg t = some r) :
    regOperand address t = .ok r := by
  simp only [regOperand, h]

theorem regOperand_of_none {t : Text} (address : Nat) (h : parseReg t = none) :
    regOperand address t = .error ⟨.invalidRegister t, address⟩ := by
  simp only [regOperand, h]

/-! ### Operand counts (R86)

An operand form takes a list of one length; lists of every other length meet its last clause, whatever the tokens are. -/

section counts
variable (table : List (Text × Nat)) (address : Nat)

theorem encodeTokens_of_length_ne_three : ∀ args : List Text, args.length ≠ 3 →
    ∀ m ∈ ["add", "sub", "and", "or", "shl", "shr", "ld", "st"],
      encodeTokens table address (m.toList :: args) = .error ⟨.wrongArgumentCount, address⟩
  | [_, _, _], h => absurd rfl h
  | [], _ | [_], _ | [_, _], _ | _ :: _ :: _ :: _ :: _, _ => by
    simp only [List.forall_mem_cons]
    exact ⟨rfl, rfl, rfl, rfl, rfl, rfl, rfl, rfl, nofun⟩

theorem encodeTokens_of_length_ne_two : ∀ args : List Text, args.length ≠ 2 → ∀ m ∈ ["not", "bz", "bn"],
    encodeTokens table address (m.toList :: args) = .error ⟨.wrongArgumentCount, address⟩
  | [_, _], h => absurd rfl h
  | [], _ | [_], _ | _ :: _ :: _ :: _, _ => by
    simp only [List.forall_mem_cons]
    exact ⟨rfl, rfl, rfl, nofun⟩

theorem encodeTokens_of_length_ne_one : ∀ args : List Text, args.length ≠ 1 → ∀ m ∈ ["br", "jal", "jr"],
    encodeTokens table address (m.toList :: args) = .error ⟨.wrongArgumentCount, address⟩
  | [_], h => absurd rfl h
  | [], _ | _ :: _ :: _, _ => by
    simp only [List.forall_mem_cons]
    exact ⟨rfl, rfl, rfl, nofun⟩

theorem encodeTokens_quit_of_length_ne_zero : ∀ args : List Text, args.length ≠ 0 →
    encodeTokens table address ("quit".toList :: args) = .error ⟨.wrongArgumentCount, address⟩
  | [], h => absurd rfl h
  | _ :: _, _ => rfl

end counts

/-- Settles O52: the tokens by the sixteen spellings, the counts by the number of operand tokens that a mnemonic takes. -/
theorem registerTokensAndOperandCounts : Obligations.RegisterTokensAndOperandCounts :=
  ⟨fun _ _ => parseReg_eq_some_iff, fun address _ => regOperand_of_none address, fun table address args =>
    ⟨encodeTokens_of_length_ne_three table address args, encodeTokens_of_length_ne_two table address args,
      encodeTokens_of_length_ne_one table address args, encodeTokens_quit_of_length_ne_zero table address args⟩⟩

/-! ### Operand values (R88)

The value operand of an instruction is a literal or stands for a label; then it is checked against an interval and packed. -/

section values
variable {table : List (Text × Nat)} {address : Nat} {t : Text} {symbolic : Nat → Int}

theorem labelOperand_of_some {a : Nat} (h : addressOf table t = some a) : labelOperand table address t = .ok a := by
  simp only [labelOperand, h]

theorem labelOperand_of_none (h : addressOf table t = none) :
    labelOperand table address t = .error ⟨.undefinedLabel t, address⟩ := by
  simp only [labelOperand, h]

theorem byteOperand_low : byteOperand table address "low".toList t =
    (labelOperand table address t).map fun a => .ofNat 8 (a % 256) := rfl

theorem byteOperand_high : byteOperand table address "high".toList t =
    (labelOperand table address t).map fun a => .ofNat 8 (a / 256 % 256) := rfl

theorem valueOperand_of_literal {v : Int} (h : parseLiteral t = some v) :
    valueOperand table address symbolic t = .ok v := by
  simp only [valueOperand, h]

theorem valueOperand_of_label {a : Nat} (h : parseLiteral t = none) (ha : addressOf table t = some a) :
    valueOperand table address symbolic t = .ok (symbolic a) := by
  simp only [valueOperand, h, labelOperand_of_some ha]
  rfl

theorem valueOperand_of_undefined (h : parseLiteral t = none) (ha : addressOf table t = none) :
    valueOperand table address symbolic t = .error ⟨.undefinedLabel t, address⟩ := by
  simp only [valueOperand, h, labelOperand_of_none ha]
  rfl

theorem valueOperand_of_literal_or_label {v : Int} (h : parseLiteral t = some v ∨
    (parseLiteral t = none ∧ ∃ a : Nat, addressOf table t = some a ∧ v = symbolic a)) :
    valueOperand table address symbolic t = .ok v := by
  rcases h with h | ⟨h, a, ha, rfl⟩
  · exact valueOperand_of_literal h
  · exact valueOperand_of_label h ha

end values

/-- A range check and the packing after it. -/
theorem map_ranged {α : Type} (fits : Int → Bool) (address : Nat) (v : Int) (pack : Int → α) :
    (ranged fits address v).map pack = if fits v then .ok (pack v) else .error ⟨.outOfRange v, address⟩ := by
  unfold ranged
  split <;> rfl

/-- The word of an instruction whose last operand is a value, a range check and a packing. -/
theorem map_encode_packed {n : Nat} (x : Except Failure Int) (fits : Int → Bool) (address : Nat)
    (pack : Int → BitVec n) (make : BitVec n → Instr) :
    (do let p ← (do let v ← x; return pack (← ranged fits address v)); return make p : Except Failure Instr).map encode =
      x.bind fun v => if fits v then .ok (encode (make (pack v))) else .error ⟨.outOfRange v, address⟩ := by
  cases x with
  | error e => rfl
  | ok v =>
    change _ = if fits v then _ else _
    rw [← map_ranged fits address v fun u => encode (make (pack u))]
    change ((((ranged fits address v).bind _).bind _).map _ : Except Failure Word) = _
    cases ranged fits address v <;> rfl

/-! ### Lines with a value operand

When the register tokens of such a line are registers, its word depends on the value of its last operand alone. -/

section lines
variable {table : List (Text × Nat)} {address : Nat} {rt : Text} {r : Reg}

theorem encodeTokens_ldi (hr : parseReg rt = some r) (vt : Text) :
    encodeTokens table address ["ldi".toList, rt, vt] =
      (valueOperand table address (fun a => (a : Int)) vt).bind fun v =>
        if -128 ≤ v ∧ v ≤ 255 then .ok (encode (.ldi r (.ofInt 8 v))) else .error ⟨.outOfRange v, address⟩ := by
  change (ldiOperands table address [rt, vt]).map encode = _
  rw [ldiOperands, regOperand_of_some address hr]
  refine (map_encode_packed _ fitsLdi address (.ofInt 8) (.ldi r)).trans ?_
  simp only [fitsLdi, decide_eq_true_eq]

/-- `ldi` with a selector: `low L` or `high L`. -/
theorem encodeTokens_ldi_selector (hr : parseReg rt = some r) (selector vt : Text) :
    encodeTokens table address ["ldi".toList, rt, selector, vt] =
      (byteOperand table address selector vt).map fun b => encode (.ldi r b) := by
  change (ldiOperands table address [rt, selector, vt]).map encode = _
  rw [ldiOperands, regOperand_of_some address hr]
  change ((byteOperand table address selector vt).bind _).map encode = _
  cases byteOperand table address selector vt <;> rfl

theorem encodeTokens_br (vt : Text) :
    encodeTokens table address ["br".toList, vt] =
      (valueOperand table address (fun a => (a : Int) - address) vt).bind fun v =>
        if -128 ≤ v ∧ v ≤ 255 then .ok (encode (.br (.ofInt 8 v))) else .error ⟨.outOfRange v, address⟩ := by
  refine (map_encode_packed _ fitsOffset address (.ofInt 8) .br).trans ?_
  simp only [fitsOffset, decide_eq_true_eq]

/-- `bz` and `bn` alike. -/
theorem map_encode_regBranch (make : Reg → BitVec 8 → Instr) (hr : parseReg rt = some r) (vt : Text) :
    (regBranch make table address [rt, vt]).map encode =
      (valueOperand table address (fun a => (a : Int) - address) vt).bind fun v =>
        if -128 ≤ v ∧ v ≤ 255 then .ok (encode (make r (.ofInt 8 v))) else .error ⟨.outOfRange v, address⟩ := by
  rw [regBranch, regOperand_of_some address hr]
  refine (map_encode_packed _ fitsOffset address (.ofInt 8) (make r)).trans ?_
  simp only [fitsOffset, decide_eq_true_eq]

theorem encodeTokens_jal (vt : Text) :
    encodeTokens table address ["jal".toList, vt] =
      (valueOperand table address (fun a => (a : Int) % 4096) vt).bind fun v =>
        if 0 ≤ v ∧ v ≤ 0xFFF then .ok (encode (.jal (.ofInt 12 v))) else .error ⟨.outOfRange v, address⟩ := by
  refine (map_encode_packed _ fitsTarget address (.ofInt 12) .jal).trans ?_
  simp only [fitsTarget, decide_eq_true_eq]

/-- `ld` and `st` alike. -/
theorem map_encode_regsOffset (make : Reg → Reg → BitVec 4 → Instr) {bt : Text} {q : Reg} (hr : parseReg rt = some r)
    (hq : parseReg bt = some q) (vt : Text) :
    (regsOffset make address [rt, bt, vt]).map encode =
      (imm4Operand address vt).map fun o => encode (make r q o) := by
  rw [regsOffset, regOperand_of_some address hr, regOperand_of_some address hq]
  change ((imm4Operand address vt).bind _).map encode = _
  cases imm4Operand address vt <;> rfl

theorem map_imm4Operand_of_literal {vt : Text} {v : Int} (h : parseLiteral vt = some v) {α : Type} (f : BitVec 4 → α) :
    (imm4Operand address vt).map f =
      if 0 ≤ v ∧ v ≤ 15 then .ok (f (.ofInt 4 v)) else .error ⟨.outOfRange v, address⟩ := by
  simp only [imm4Operand, h, map_ranged, fitsImm4, decide_eq_true_eq]
  split <;> rfl

theorem imm4Operand_of_no_literal {vt : Text} (h : parseLiteral vt = none) :
    imm4Operand address vt = .error ⟨.invalidImmediate vt, address⟩ := by
  simp only [imm4Operand, h]

end lines

/-- Settles O53: the value by what its token stands for, the bytes of a label by the selector. -/
theorem ldiOperandForms : Obligations.LdiOperandForms := by
  intro table address rt vt r hr
  refine ⟨fun v hv => ?_, fun a ha => ⟨?_, ?_⟩, fun ha => ⟨?_, ?_, fun hn => ?_⟩⟩
  · rw [encodeTokens_ldi hr, valueOperand_of_literal_or_label hv]
    rfl
  · rw [encodeTokens_ldi_selector hr, byteOperand_low, labelOperand_of_some ha]
    rfl
  · rw [encodeTokens_ldi_selector hr, byteOperand_high, labelOperand_of_some ha]
    rfl
  · rw [encodeTokens_ldi_selector hr, byteOperand_low, labelOperand_of_none ha]
    rfl
  · rw [encodeTokens_ldi_selector hr, byteOperand_high, labelOperand_of_none ha]
    rfl
  · rw [encodeTokens_ldi hr, valueOperand_of_undefined hn ha]
    rfl

/-- A branch offset packed into 8 bits reads back as it stands below 128, and less 256 from there on (R91, C6). -/
theorem sint8_ofInt {v : Int} (hlo : -128 ≤ v) (hhi : v ≤ 255) :
    Machine.sint8 (.ofInt 8 v) = if v < 128 then v else v - 256 := by
  simp only [Machine.sint8, BitVec.toNat_ofInt]
  split_ifs <;> omega

/-- Settles O54: the three branches share the value operand and its interval. -/
theorem branchOperandForms : Obligations.BranchOperandForms := by
  intro table address rt vt r hr
  refine ⟨fun v hv => ?_, fun hn ha => ?_⟩
  · have hval := valueOperand_of_literal_or_label (address := address) hv
    exact ⟨(encodeTokens_br vt).trans (congrArg (Except.bind · _) hval),
      (map_encode_regBranch .bz hr vt).trans (congrArg (Except.bind · _) hval),
      (map_encode_regBranch .bn hr vt).trans (congrArg (Except.bind · _) hval), fun ⟨hlo, hhi⟩ => sint8_ofInt hlo hhi⟩
  · have hval := valueOperand_of_undefined (address := address) (symbolic := fun a => (a : Int) - address) hn ha
    exact ⟨(encodeTokens_br vt).trans (congrArg (Except.bind · _) hval),
      (map_encode_regBranch .bz hr vt).trans (congrArg (Except.bind · _) hval),
      (map_encode_regBranch .bn hr vt).trans (congrArg (Except.bind · _) hval)⟩

/-- Settles O55: a label's value modulo 4096 always lies in the interval. -/
theorem jalOperandForms : Obligations.JalOperandForms := by
  refine fun table address vt => ⟨fun v hv => ?_, fun a hn ha => ?_, fun hn ha => ?_⟩
  · rw [encodeTokens_jal, valueOperand_of_literal hv]
    rfl
  · have hfits : 0 ≤ (a : Int) % 4096 ∧ (a : Int) % 4096 ≤ 0xFFF := by omega
    rw [encodeTokens_jal, valueOperand_of_label hn ha]
    refine (if_pos hfits).trans ?_
    rw [← BitVec.ofInt_natCast, Int.natCast_emod]
    rfl
  · rw [encodeTokens_jal, valueOperand_of_undefined hn ha]
    rfl

/-- Settles O56: `ld` and `st` share the offset operand, which like a data literal is a number in its interval. -/
theorem offsetAndDataLiterals : Obligations.OffsetAndDataLiterals := by
  refine fun table address at' bt vt r q hr hq => ⟨fun v hv => ⟨?_, ?_, ?_⟩, fun hn => ⟨?_, ?_, ?_⟩⟩
  · exact (map_encode_regsOffset .ld hr hq vt).trans (map_imm4Operand_of_literal hv _)
  · exact (map_encode_regsOffset .st hr hq vt).trans (map_imm4Operand_of_literal hv _)
  · simp only [encodeData, hv, map_ranged, fitsData, decide_eq_true_eq]
  · refine (map_encode_regsOffset .ld hr hq vt).trans ?_
    rw [imm4Operand_of_no_literal hn]
    rfl
  · refine (map_encode_regsOffset .st hr hq vt).trans ?_
    rw [imm4Operand_of_no_literal hn]
    rfl
  · simp only [encodeData, hn]

/-! ### Program lines (R93) -/

/-- Settles O58: the first clause is `encodeLine_spec` for a line that is not blank. -/
theorem programLinesAssembleToTheirInstruction : Obligations.ProgramLinesAssembleToTheirInstruction :=
  fun _ _ _ hline => ⟨fun _ hw => (encodeLine_spec hw).resolve_left fun hblank => hline hblank.1,
    fun htokens => if_pos ⟨htokens, hline⟩⟩

/-- The word of an instruction is canonical. -/
theorem canonicalWord_encode (i : Instr) : canonicalWord (encode i) = true := by
  rw [canonicalWord_iff, decodeOfEncodeIsIdentity]

/-- The word of a program line is canonical: an instruction's, or the all-zero word of a blank line. -/
theorem canonicalWord_of_encodeLine {table : List (Text × Nat)} {address : Nat} {line : Text} {w : Word}
    (h : encodeLine table address line = .ok w) : canonicalWord w = true := by
  rcases encodeLine_spec h with ⟨_, rfl⟩ | ⟨_, _, i, _, _, rfl⟩
  · decide
  · exact canonicalWord_encode i

/-- Settles O59: every word of the program segment is the word of some line. -/
theorem assembledProgramWordsAreCanonical : Obligations.AssembledProgramWordsAreCanonical := by
  intro src a h w hw
  obtain ⟨_, hprogram, _⟩ := assemble_eq_ok h
  obtain ⟨_, _, hline⟩ := (encodeFrom_spec hprogram).2 w hw
  exact canonicalWord_of_encodeLine hline

end Sys2Proof.Asm

namespace Sys2Proof.Machine

/-! ### Every word has a meaning (R76) -/

/-- Settles O9: a step is nothing, the fetch fault or an instruction (R100), and every instruction answers a next state
(`exec_shape`). -/
theorem everyStepAnswersANextState : Obligations.EveryStepAnswersANextState := by
  have hexec (i : Instr) (s : State) : ∃ t, exec i s = .next t := (exec_shape i s).imp fun _ h => h.1
  refine ⟨fun s => ?_, hexec⟩
  cases he : s.enabled with
  | false => exact ⟨s, step_of_not_enabled he⟩
  | true =>
    cases hw : s.fetch with
    | none => exact ⟨s.raise (.pcOutOfRange s.pc), by simp only [step, he, hw, if_true]⟩
    | some w =>
      rw [step_of_fetch he hw]
      exact hexec _ s

end Sys2Proof.Machine
end

section
/-! SUPPORT. The statements of spec/40_execution_cycle.md: the fetch and its fault (R100, R101), the engine that is not
enabled (R109), `run()` and its cap (R107, R108, R110), and the step report (R106). -/

namespace Sys2Proof.Machine

/-! ### Fetch and execute (R100, R101) -/

/-- Nothing can be fetched exactly when the pc is out of range or names an absent address (R44). -/
theorem State.fetch_eq_none_iff {s : State} : s.fetch = none ↔ s.pcOor = true ∨ s.lookup s.pc = none := by
  cases ho : s.pcOor <;> simp [State.fetch, ho]

/-- In range, the fetch is the word at the pc (R44). -/
theorem State.fetch_of_in_range {s : State} (h : s.pcOor = false) : s.fetch = s.lookup s.pc := by
  simp [State.fetch, h]

/-- A step of an enabled engine that can fetch nothing takes the fetch fault (R101). -/
theorem step_of_fetch_none {s : State} (he : s.enabled = true) (hf : s.fetch = none) :
    step s = .next (s.raise (.pcOutOfRange s.pc)) := by
  simp [step, he, hf]

/-- Settles O6: the fetch gives the word at the pc, and the step is its instruction (`step_of_fetch`). -/
theorem stepRunsTheDecodedInstruction : Obligations.StepRunsTheDecodedInstruction := fun s _ hr hc ho hw =>
  step_of_fetch (s.enabled_iff.2 ⟨hr, hc⟩) ((State.fetch_of_in_range ho).trans hw)

/-- Settles O7: the step is the fetch fault (`step_of_fetch_none`), and raising it does nothing else (`State.raise_spec`). -/
theorem fetchOfAbsentOrOutOfRangeFaults : Obligations.FetchOfAbsentOrOutOfRangeFaults := fun s hr hc hf =>
  ⟨_, step_of_fetch_none (s.enabled_iff.2 ⟨hr, hc⟩) (State.fetch_eq_none_iff.2 hf), s.raise_spec _⟩

/-! ### An engine that is not enabled (R109) -/

/-- An engine is not enabled exactly when it is Halted or not compiled. -/
theorem State.enabled_eq_false_iff {s : State} : s.enabled = false ↔ s.runState = .halted ∨ s.compiled = false := by
  cases hr : s.runState <;> simp [State.enabled, hr]

/-- Settles O8: neither a step nor `run()` moves an engine that is not enabled. -/
theorem notRunningIsTerminal : Obligations.NotRunningIsTerminal := fun _ n d h =>
  have hoff := State.enabled_eq_false_iff.2 h
  ⟨afterSteps_fixed (step_of_not_enabled hoff) n, run_of_not_enabled d hoff⟩

/-- Steps that have left the enabled states stay where they are. -/
theorem afterSteps_eq_of_not_enabled {n m : Nat} {s t u : State} (ht : AfterSteps n s t) (hoff : t.enabled = false)
    (hnm : n ≤ m) (hu : AfterSteps m s u) : u = t := by
  have hstay : AfterSteps (m - n) t t := afterSteps_fixed (step_of_not_enabled hoff) _
  have hm : AfterSteps (n + (m - n)) s t := afterSteps_add ht hstay
  rw [Nat.add_sub_cancel' hnm] at hm
  exact afterSteps_unique hu hm

/-! ### The cap of `run()` (R107, R108) -/

/-- An engine that the loop leaves enabled takes the cap fault (R162). -/
theorem afterLoop_of_enabled (d : Bool) {s : State} (n : Nat) (he : s.enabled = true) :
    afterLoop d s n = s.raise (.stepCapReached s.pc) := by
  simp [afterLoop, he]

/-- After an engine that the loop leaves not enabled there is nothing more, or the drawn cap fault of the boundary case
(D13). -/
theorem afterLoop_of_not_enabled (d : Bool) {s : State} (n : Nat) (hoff : s.enabled = false) :
    afterLoop d s n = s ∨ (n = Config.maxSteps ∧ d = true ∧ afterLoop d s n = s.raise (.stepCapReached s.pc)) := by
  by_cases hcap : n = Config.maxSteps ∧ d = true
  · exact .inr ⟨hcap.1, hcap.2, by simp [afterLoop, hcap]⟩
  · exact .inl (by simpa [afterLoop, hoff] using fun hn hd => absurd ⟨hn, hd⟩ hcap)

/-- Settles O42, by whether the loop leaves the engine enabled. -/
theorem runIsAtMostTenThousandSteps : Obligations.RunIsAtMostTenThousandSteps := by
  intro d s t h
  cases he : s.enabled with
  | false =>
    cases (run_of_not_enabled d he).symm.trans h
    exact ⟨0, s, by omega, afterSteps_zero.2 rfl, by simp, .inl ⟨he, rfl⟩⟩
  | true =>
    obtain ⟨u, n, hrun, hn, hsteps, hfrom, hfew⟩ := run_of_enabled d he
    cases hrun.symm.trans h
    refine ⟨n, u, hn, hsteps, hfrom, ?_⟩
    cases hu : u.enabled with
    | true =>
      have hall : n = Config.maxSteps := by
        by_contra hne
        simp [hfew (by omega)] at hu
      exact .inr ⟨hall, afterLoop_of_enabled d n hu, .inl rfl⟩
    | false =>
      rcases afterLoop_of_not_enabled d n hu with hsame | ⟨hall, hd, hcap⟩
      · exact .inl ⟨rfl, hsame⟩
      · exact .inr ⟨hall, hcap, .inr hd⟩

/-- Settles O44: fewer steps would have left the engine not enabled, and then 10000 would have too. -/
theorem stepCapEndsALongRun : Obligations.StepCapEndsALongRun := by
  intro d s u hu hon
  have henabled {n : Nat} {v : State} (hn : n ≤ 10000) (hv : AfterSteps n s v) : v.enabled = true := by
    by_contra hoff
    rw [Bool.not_eq_true] at hoff
    rw [afterSteps_eq_of_not_enabled hv hoff hn hu, hoff] at hon
    cases hon
  obtain ⟨v, n, hrun, hn, hsteps, _, hfew⟩ := run_of_enabled d (henabled (Nat.zero_le _) (afterSteps_zero.2 rfl))
  have hv := henabled hn hsteps
  have hall : n = 10000 := by
    by_contra hne
    simp [hfew (lt_of_le_of_ne hn hne)] at hv
  subst hall
  cases afterSteps_unique hsteps hu
  exact ⟨_, hrun.trans (congrArg _ (afterLoop_of_enabled d _ hon)), u.raise_spec _⟩

/-- A fault that a Halted engine takes is only recorded. -/
theorem State.raise_of_halted {s : State} (h : s.runState = .halted) (f : ExecFault) :
    s.raise f = { s with lastFault := some f } := by
  simp [State.raise, ← h]

/-- What follows the loop changes at most the recorded fault of a Halted engine, and that to the cap fault (D13). -/
theorem afterLoop_of_halted (d : Bool) {s : State} (n : Nat) (h : s.runState = .halted) :
    ∃ f, afterLoop d s n = { s with lastFault := f } ∧ (f = s.lastFault ∨ f = some (.stepCapReached s.pc)) := by
  rcases afterLoop_of_not_enabled d n (State.enabled_of_halted h) with hsame | ⟨_, _, hcap⟩
  · exact ⟨_, hsame, .inl rfl⟩
  · exact ⟨_, hcap.trans (State.raise_of_halted h _), .inr rfl⟩

/-- Settles O45: both draws follow the same loop. An engine that it leaves enabled takes the cap fault under both; a Halted
one at most has its recorded fault changed. -/
theorem capReportIsTheOnlyOpenPartOfRun : Obligations.CapReportIsTheOnlyOpenPartOfRun := by
  intro d d' s
  cases he : s.enabled with
  | false => exact ⟨s, s, run_of_not_enabled d he, run_of_not_enabled d' he, rfl, .inl rfl⟩
  | true =>
    obtain ⟨u, n, hloop, _, hsteps, _, _⟩ := runLoop_spec Config.maxSteps s
    have hrun (c : Bool) : run c s = .next (afterLoop c u n) := by simp [run, he, hloop]
    refine ⟨_, _, hrun d, hrun d', ?_⟩
    cases hu : u.enabled with
    | true =>
      rw [afterLoop_of_enabled d n hu, afterLoop_of_enabled d' n hu]
      exact ⟨rfl, .inl rfl⟩
    | false =>
      have hhalt : u.runState = .halted :=
        State.halted_of_not_enabled hu ((afterSteps_compiled hsteps).trans (s.enabled_iff.1 he).2)
      obtain ⟨f, hf, hcase⟩ := afterLoop_of_halted d n hhalt
      obtain ⟨f', hf', hcase'⟩ := afterLoop_of_halted d' n hhalt
      rw [hf, hf']
      refine ⟨rfl, ?_⟩
      rcases hcase with rfl | rfl
      · exact hcase'.imp id .inr
      · exact .inr (.inl rfl)

/-! ### The end of a run (R110) -/

/-- An engine that is Halted without a recorded fault stands at a `quit` (R110). -/
def StandsAtQuit (s : State) : Prop :=
  s.runState = .halted → s.lastFault = none → ∃ w, s.fetch = some w ∧ decodeWord w = .quit

/-- Only a `quit`, which leaves the pc, halts without recording a fault. -/
theorem step_standsAtQuit (s t : State) (h : step s = .next t) (hs : StandsAtQuit s) : StandsAtQuit t := by
  intro hhalt hnone
  cases he : s.enabled with
  | false =>
    cases (step_of_not_enabled he).symm.trans h
    exact hs hhalt hnone
  | true =>
    rcases (step_halted_iff h he).1 hhalt with ⟨w, hw, hq⟩ | ⟨f, _, hf, _⟩
    · rw [step_of_fetch he hw, hq] at h
      cases h
      exact ⟨w, hw, hq⟩
    · rw [hf] at hnone
      cases hnone

/-- A `run()` of an enabled engine that ends without a recorded fault ends at a `quit`. -/
theorem run_standsAtQuit {d : Bool} {s t : State} (h : run d s = .next t) (he : s.enabled = true) : StandsAtQuit t := by
  refine run_induction (P := StandsAtQuit) step_standsAtQuit (fun _ _ _ _ => nofun) h fun hhalt => ?_
  rw [(s.enabled_iff.1 he).1] at hhalt
  cases hhalt

/-- A Halted engine in the invariant that stands at a `quit` unless it has recorded a fault has ended as R110 says. -/
theorem Inv.runEnded {t : State} (h : Inv t) (hhalt : t.runState = .halted) (hquit : StandsAtQuit t) : RunEnded t := by
  refine ⟨hhalt, ?_⟩
  have hfault := h.fault
  unfold FaultExplained at hfault
  split at hfault
  next hnone => exact .inl ⟨⟨hhalt, hnone⟩, hquit hhalt hnone⟩
  next pc hf =>
    obtain ⟨rfl, hfetch⟩ := hfault
    exact .inr (.inl ⟨hf, hfetch⟩)
  next pc hf =>
    subst hfault
    exact .inr (.inr (.inr hf))
  next => exact hfault.elim
  next pc ea hf =>
    obtain ⟨rfl, hlo, _⟩ := hfault
    exact .inr (.inr (.inl ⟨ea, hf, hlo⟩))

/-- Settles O46: `run()` keeps the invariant, whose clause on the recorded fault tells the three faults, and ends Halted,
without a fault only at a `quit`. -/
theorem runEndsInOneOfFourWays : Obligations.RunEndsInOneOfFourWays := fun _ _ _ hInv he hrun =>
  (hInv.run hrun).runEnded (run_halts hrun he) (run_standsAtQuit hrun he)

/-! ### The step report (R106) -/

section report
variable {s t : State} {i : Instr}

/-- A step that can fetch nothing reports the fetch fault. -/
theorem report_of_fetch_none (he : s.enabled = true) (hw : s.fetch = none) :
    report s = some (.faulted (.pcOutOfRange s.pc)) := by
  simp [report, he, hw]

/-- A step whose instruction takes a fault reports that fault. -/
theorem report_of_fault {w : Word} {f : ExecFault} (he : s.enabled = true) (hw : s.fetch = some w)
    (hf : faultOf (decodeWord w) s = some f) : report s = some (.faulted f) := by
  simp [report, he, hw, hf]

/-- Any other step reports its instruction and the effect. -/
theorem report_of_exec {w : Word} (he : s.enabled = true) (hw : s.fetch = some w)
    (hf : faultOf (decodeWord w) s = none) (h : exec (decodeWord w) s = .next t) :
    report s = some (.executed s.pc w (decodeWord w) (effectOf (decodeWord w) s t)) := by
  simp [report, he, hw, hf, h]

/-- An instruction that takes no fault leaves the recorded fault. -/
theorem exec_lastFault (h : exec i s = .next t) (hf : faultOf i s = none) : t.lastFault = s.lastFault := by
  cases shape_of_exec h with
  | address ea hea => simp [hf] at hea
  | result | store | branch | fall | link | jump | halt => rfl

/-- The effect of an instruction that writes a register, other than `jal`, is that register with its new value. -/
theorem effectOf_of_writes {rd : Reg} (hw : writesOf i = [rd]) (hjal : ∀ t12, i ≠ .jal t12) :
    effectOf i s t = .regWritten rd (t.reg rd) := by
  cases i with
  | add | sub | and | or | not | shl | shr | ldi | ld =>
    cases hw
    rfl
  | jal t12 => exact absurd rfl (hjal t12)
  | st | br | bz | bn | jr | quit => cases hw

/-- The effect of a `st` that takes no fault is the word it stores and where, and memory changes there alone. -/
theorem effectOf_st {value base : Reg} {imm4 : BitVec 4} (h : exec (.st value base imm4) s = .next t)
    (hf : faultOf (.st value base imm4) s = none) :
    ∃ a : Word, effectOf (.st value base imm4) s t = .memWritten a (s.reg value) ∧
      (s.reg base).toNat + imm4.toNat = a.toNat ∧ t.lookup a = some (s.reg value) ∧ SameMemBut a s t := by
  have hle := faultOf_st_eq_none_iff.1 hf
  have ha : effectiveAddress s base imm4 = (BitVec.ofNat 16 (effectiveAddress s base imm4)).toNat :=
    (Nat.mod_eq_of_lt (Nat.lt_succ_of_le hle)).symm
  cases (exec_st_of_address value ha).symm.trans h
  obtain ⟨hstored, hothers, _⟩ := storeAdvance_spec s (BitVec.ofNat 16 (effectiveAddress s base imm4)) (s.reg value)
  exact ⟨_, rfl, ha, hstored, hothers⟩

/-- The effect of a `jal` is its link or its new pc; which one is open (log 13). -/
theorem effectOf_jal (t12 : BitVec 12) :
    effectOf (.jal t12) s t = .regWritten 15 (t.reg 15) ∨ effectOf (.jal t12) s t = .newPc t.pc := by
  simp only [effectOf]
  split_ifs
  · exact .inl rfl
  · exact .inr rfl

end report

/-- Settles O51: the fetch fault, the instruction's fault, or the instruction with its effect, which is told kind by kind. -/
theorem reportTellsWhatTheStepDid : Obligations.ReportTellsWhatTheStepDid := by
  intro s he
  cases hw : s.fetch with
  | none =>
    refine ⟨_, _, step_of_fetch_none he hw, report_of_fetch_none he hw, fun _ => rfl, nofun, fun _ => ⟨_, rfl⟩, ?_, nofun⟩
    rintro _ ⟨⟩
    exact s.raise_spec _
  | some w =>
    cases hf : faultOf (decodeWord w) s with
    | some f =>
      refine ⟨_, _, (step_of_fetch he hw).trans (exec_of_fault hf), report_of_fault he hw hf, nofun, ?_,
        fun _ => ⟨f, rfl⟩, ?_, ?_⟩
      · rintro _ f' ⟨⟩ hf'
        rw [Option.some.inj (hf.symm.trans hf')]
      · rintro _ ⟨⟩
        exact s.raise_spec f
      · rintro _ ⟨⟩ hnone
        cases hf.symm.trans hnone
    | none =>
      obtain ⟨t, ht, _⟩ := exec_shape (decodeWord w) s
      refine ⟨t, _, (step_of_fetch he hw).trans ht, report_of_exec he hw hf ht, nofun, ?_,
        fun hne => absurd (exec_lastFault ht hf) hne, nofun, ?_⟩
      · rintro _ f' ⟨⟩ hf'
        cases hf.symm.trans hf'
      · rintro _ ⟨⟩ _
        refine ⟨_, rfl, fun rd hrd hjal => effectOf_of_writes hrd hjal, fun value base imm4 hi => ?_, fun hi => ?_,
          fun t12 hi => ?_, fun hi => ?_⟩
        · rw [hi] at ht hf ⊢
          exact effectOf_st ht hf
        · rcases hi with ⟨_, hi⟩ | ⟨_, _, hi⟩ | ⟨_, _, hi⟩ | ⟨_, hi⟩ <;> rw [hi] <;> rfl
        · rw [hi]
          exact effectOf_jal t12
        · rw [hi] at ht ⊢
          cases ht
          exact ⟨rfl, rfl⟩

end Sys2Proof.Machine
end

section
/-! SUPPORT. The statements of spec/41_alu.md: the results of `add`, `sub`, `and`, `or`, `not`, `shl`, `shr` (R120 to R126)
and the count of a shift (R128). -/

namespace Sys2Proof.Machine

/-! ### Results and their frame (R103) -/

section result
variable (s : State) (rd : Reg) (v : Word)

/-- Results are read back from the register they are written to. -/
@[simp] theorem writeResult_reg_same : (writeResult s rd v).reg rd = v := (writeResult_spec s rd v).1

theorem writeResult_frame : SameRegsBut rd s (writeResult s rd v) ∧
    PcSetTo (writeResult s rd v) ((s.pc.toNat : Int) + 1) ∧ SameMem s (writeResult s rd v) ∧
    SameControl s (writeResult s rd v) := (writeResult_spec s rd v).2

end result

/-! ### Shifts (R125, R126, R128) -/

section shifts
variable {bits : Config.ShamtBits} {rs1 rs2 : Reg} {s : State} {n : Nat}

theorem shlWith_reg (rd : Reg) (hn : (s.reg rs2).toNat % 2 ^ bits.bits = n) :
    (shlWith bits rd rs1 rs2 s).reg rd = s.reg rs1 <<< n := by
  rw [shlWith, writeResult_reg_same, shiftCount_eq, hn]

theorem shrWith_reg (rd : Reg) (hn : (s.reg rs2).toNat % 2 ^ bits.bits = n) :
    (shrWith bits rd rs1 rs2 s).reg rd = s.reg rs1 >>> n := by
  rw [shrWith, writeResult_reg_same, shiftCount_eq, hn]

end shifts

/-- Settles O16: the results are the source shifted by the count `n`, so a count of at least the width leaves no bit. -/
theorem shiftsUnderEachReading : Obligations.ShiftsUnderEachReading := by
  intro bits rd rs1 rs2 s n hn
  rw [shlWith_reg rd hn, shrWith_reg rd hn]
  refine ⟨?_, ?_, fun hwidth => ⟨BitVec.shiftLeft_eq_zero hwidth, BitVec.ushiftRight_eq_zero hwidth⟩⟩
  · rw [BitVec.toNat_shiftLeft, Nat.shiftLeft_eq]
  · rw [BitVec.toNat_ushiftRight, Nat.shiftRight_eq_div_pow]

/-- Settles O14: the hardware's reading is one of those of O16. -/
theorem shlWritesTheShiftedValue : Obligations.ShlWritesTheShiftedValue := fun rd rs1 rs2 s =>
  have ⟨hshl, _⟩ := shiftsUnderEachReading Config.shamtBits rd rs1 rs2 s _ rfl
  ⟨_, rfl, hshl, writeResult_frame s rd _⟩

/-- Settles O15: the hardware's reading is one of those of O16. -/
theorem shrWritesTheShiftedValue : Obligations.ShrWritesTheShiftedValue := fun rd rs1 rs2 s =>
  have ⟨_, hshr, _⟩ := shiftsUnderEachReading Config.shamtBits rd rs1 rs2 s _ rfl
  ⟨_, rfl, hshr, writeResult_frame s rd _⟩

/-! ### Arithmetic and logic (R120 to R124) -/

/-- Settles O10: the sum of words is the sum of their numbers modulo 2^16. -/
theorem addWritesTheSumModulo : Obligations.AddWritesTheSumModulo := by
  intro rd rs1 rs2 s
  refine ⟨_, rfl, ?_, writeResult_frame s rd _⟩
  rw [writeResult_reg_same, BitVec.toNat_add]

/-- The difference of words is the difference of their numbers modulo 2^16, negative or not. -/
theorem toNat_word_sub (x y : Word) : ((x - y).toNat : Int) = ((x.toNat : Int) - (y.toNat : Int)) % 65536 := by
  have hy := y.isLt
  rw [BitVec.toNat_sub]
  omega

/-- Settles O11, by `toNat_word_sub`. -/
theorem subWritesTheDifferenceModulo : Obligations.SubWritesTheDifferenceModulo := by
  intro rd rs1 rs2 s
  refine ⟨_, rfl, ?_, writeResult_frame s rd _⟩
  rw [writeResult_reg_same, toNat_word_sub]

/-- Settles O12: each bit of the result is made of the sources' bits at its place. -/
theorem andOrWriteTheBitwiseResult : Obligations.AndOrWriteTheBitwiseResult := by
  intro rd rs1 rs2 s
  refine ⟨⟨_, rfl, fun k => ?_, writeResult_frame s rd _⟩, ⟨_, rfl, fun k => ?_, writeResult_frame s rd _⟩⟩
  · rw [writeResult_reg_same]
    exact BitVec.getElem_and k.isLt
  · rw [writeResult_reg_same]
    exact BitVec.getElem_or k.isLt

/-- Settles O13: the complement of a word is its distance from 0xFFFF. -/
theorem notWritesTheComplement : Obligations.NotWritesTheComplement := by
  intro rd rs1 s
  refine ⟨_, rfl, ?_, writeResult_frame s rd _⟩
  rw [writeResult_reg_same, BitVec.toNat_not]

end Sys2Proof.Machine
end

section
/-! SUPPORT. The statement of spec/42_ldi.md (R130): what `ldi` writes under either reading of `LDI_EXT`, with its frame. -/

namespace Sys2Proof.Machine

/-- Zero extension keeps the number. -/
theorem toNat_zext16 (v : BitVec 8) : (zext16 v).toNat = v.toNat := BitVec.toNat_setWidth_of_le (by decide)

/-- From 0x80 on the value of the reading `sign`, as a number: the sum with 0xFF00 stays below 2^16. -/
theorem toNat_ldiValue_sign_of_ge {imm8 : BitVec 8} (h : 0x80 ≤ imm8.toNat) :
    (ldiValue .sign imm8).toNat = imm8.toNat + 0xFF00 := by
  have hsum : (zext16 imm8).toNat + (0xFF00 : Word).toNat < 2 ^ 16 := by
    rw [toNat_zext16]
    exact Nat.add_lt_add_right imm8.isLt 0xFF00
  rw [ldiValue_sign_of_ge h, ldiValue_zero, BitVec.toNat_add_of_lt hsum, toNat_zext16]
  rfl

/-- The value of `ldi` as a number, under either reading of `LDI_EXT` (R130). -/
theorem toNat_ldiValue (e : Config.LdiExt) (imm8 : BitVec 8) :
    (ldiValue e imm8).toNat =
      if imm8.toNat < 128 ∨ e = .zero then imm8.toNat else imm8.toNat + 0xFF00 := by
  rcases Nat.lt_or_ge imm8.toNat 128 with hlt | hge
  · rw [ldiValue_of_lt e hlt, if_pos (.inl hlt), toNat_zext16]
  · cases e with
    | zero => rw [ldiValue_zero, if_pos (.inr rfl), toNat_zext16]
    | sign => rw [toNat_ldiValue_sign_of_ge hge, if_neg (not_or.2 ⟨Nat.not_lt.2 hge, nofun⟩)]

/-- Settles O17: the hardware's reading of `LDI_EXT` is one of the two of `toNat_ldiValue`. -/
theorem ldiWritesTheWidenedImmediate : Obligations.LdiWritesTheWidenedImmediate := by
  intro rd imm8 s
  refine ⟨_, rfl, ?_, writeResult_frame s rd _⟩
  rw [ldiWith, writeResult_reg_same, toNat_ldiValue]

end Sys2Proof.Machine
end

section
/-! SUPPORT. The statements of spec/43_load_store.md at an address of the space: what `ld` reads (R136) and what `st`
writes (R137), each with its frame. -/

namespace Sys2Proof.Machine

/-- A data read of an absent address gives 0 (R43). -/
theorem State.memRead_of_absent {s : State} {a : Word} (h : s.lookup a = none) : s.memRead a = 0 := by
  rw [State.memRead, h]
  rfl

/-- An address that holds a word is present (R42). -/
theorem State.present_of_lookup {s : State} {a w : Word} (h : s.lookup a = some w) : s.present a = true := by
  rw [State.present, h]
  rfl

/-- Settles O19: the result written is the data read of the address, which is the word there or, where it is absent, 0. -/
theorem ldReadsTheWordOrZero : Obligations.LdReadsTheWordOrZero := by
  intro rd base imm4 s a ha
  refine ⟨_, exec_ld_of_address rd ha, fun w hw => ?_, fun habsent => ?_, writeResult_frame s rd _⟩
  · rw [writeResult_reg_same, State.memRead_of_lookup hw]
  · rw [writeResult_reg_same, State.memRead_of_absent habsent]

/-- Settles O20: the effect is a store and the advance after it (`storeAdvance_spec`). -/
theorem stWritesTheWord : Obligations.StWritesTheWord := by
  intro value base imm4 s a ha
  obtain ⟨hstored, hframe⟩ := storeAdvance_spec s a (s.reg value)
  exact ⟨_, exec_st_of_address value ha, hstored, State.present_of_lookup hstored, hframe⟩

end Sys2Proof.Machine
end

section
/-! SUPPORT. The statements of spec/44_control_flow.md: where `br`, `bz`, `bn`, `jal` and `jr` go (R140 to R146), each with
its frame. -/

namespace Sys2Proof.Machine

/-! ### Relative branches (R140 to R142, R145) -/

/-- A branch is a `SetPC` to its target or to the next address, by its condition `c` as a proposition. -/
theorem branchIf_spec_of_iff {taken : Bool} {c : Prop} [Decidable c] (hc : taken = true ↔ c) (off8 : BitVec 8)
    (s : State) :
    PcSetTo (branchIf taken off8 s) (if c then branchTarget s.pc off8 else (s.pc.toNat : Int) + 1) ∧
      SameRegs s (branchIf taken off8 s) ∧ SameMem s (branchIf taken off8 s) ∧
      SameControl s (branchIf taken off8 s) := by
  have hspec := branchIf_spec taken off8 s
  simpa only [hc] using hspec

/-- Settles O24: a branch that is always taken, so `branchIf_spec` at its target. -/
theorem brGoesToItsTarget : Obligations.BrGoesToItsTarget := fun off8 s => ⟨_, rfl, branchIf_spec true off8 s⟩

/-- Settles O25: the two conditions are those of `isZero_iff` and `isNegative_iff`. -/
theorem bzBnBranchExactlyOnTheirCondition : Obligations.BzBnBranchExactlyOnTheirCondition := by
  rintro test off8 s _ rfl
  exact ⟨⟨_, rfl, branchIf_spec_of_iff (isZero_iff (s.reg test)) off8 s⟩,
    ⟨_, rfl, branchIf_spec_of_iff (isNegative_iff (s.reg test)) off8 s⟩⟩

/-! ### Jumps (R143, R144, R146) -/

/-- The link is the next address modulo 2^16 (R143). -/
theorem toNat_linkValue (pc : Word) : (linkValue pc).toNat = (pc.toNat + 1) % 65536 := BitVec.toNat_add pc 1

/-- Settles O26: the link is written before the jump, which changes no register (`toNat_linkValue`, `toNat_jalTarget`). -/
theorem jalLinksAndJumpsInItsBank : Obligations.JalLinksAndJumpsInItsBank := by
  intro t12 s
  refine ⟨_, rfl, ?_, toNat_jalTarget s.pc t12, rfl, fun r hr => ?_, fun _ => rfl, rfl, rfl, rfl⟩
  · rw [State.jump_reg, State.reg_writeReg, Config.link, if_pos rfl, toNat_linkValue]
  · rw [State.jump_reg, State.reg_writeReg, Config.link, if_neg hr]

/-- Settles O27: a jump to the word in the register. -/
theorem jrGoesToTheRegister : Obligations.JrGoesToTheRegister := fun _ _ =>
  ⟨_, rfl, rfl, rfl, fun _ => rfl, fun _ => rfl, rfl, rfl, rfl⟩

/-- Settles O28: `jr r15` goes to the word in register 15 (O27), which is the link of the `jal` (O26). -/
theorem jrReturnsAfterJal : Obligations.JrReturnsAfterJal := by
  intro t12 s
  obtain ⟨t, hjal, hlink, _⟩ := jalLinksAndJumpsInItsBank t12 s
  refine ⟨t, hjal, fun u hu => ?_⟩
  obtain ⟨v, hjr, hpc, hoor, _⟩ := jrGoesToTheRegister 15 u
  exact ⟨v, hjr, by rw [hpc, hu, hlink], hoor⟩

end Sys2Proof.Machine
end

section
/-! SUPPORT. The statement of spec/45_system.md (R150): `quit`. -/

namespace Sys2Proof.Machine

/-- `quit` halts, in every state (R150). -/
theorem exec_quit (s : State) : exec .quit s = .next s.halt := rfl

/-- Settles O29: halting writes `run_state` alone, so each of the other fields reads as before. -/
theorem quitHaltsInPlace : Obligations.QuitHaltsInPlace := fun s =>
  ⟨s.halt, exec_quit s, s.halt_runState, ⟨s.halt_pc, s.halt_pcOor⟩, s.halt_reg, State.lookup_of_mem s.halt_mem,
    s.halt_compiled, s.halt_lastFault⟩

end Sys2Proof.Machine
end

section
/-! SUPPORT. The statement of spec/60_exceptions.md (R168): faults are precise. -/

namespace Sys2Proof.Machine

/-- Settles O34, by what a step can do (`step_cases`): the fetch fault and the address fault do nothing but raise
(`State.raise_spec`), and every other step leaves `last_fault`. -/
theorem faultsArePrecise : Obligations.FaultsArePrecise := by
  intro s t h hne
  rcases step_cases h with ⟨_, rfl⟩ | ⟨_, _, rfl⟩ | ⟨_, _, _, _, _, hshape⟩
  · exact absurd rfl hne
  · exact ⟨_, s.raise_spec _⟩
  · cases hshape with
    | address ea => exact ⟨_, s.raise_spec _⟩
    | result | store | branch | fall | link | jump | halt => exact absurd rfl hne

end Sys2Proof.Machine
end

section
/-! SUPPORT. The statements of spec/70_reset_and_hazards.md: what `reset()`, `load_image` and a failed compile leave (R190 to
R193), a stored word as the next fetch of its address (R202), and the end of `run()` (R204). -/

namespace Sys2Proof.Machine

/-! ### The states that the host's operations leave (R190 to R193) -/

/-- `reset()` and every compile leave all registers zero. -/
@[simp] theorem State.restart_reg (s : State) (r : Reg) : s.restart.reg r = 0 := Vector.getElem_replicate r.isLt

/-- Settles O39: the registers by `State.restart_reg`, the run state by `hostReset_running_iff`; memory and the compiled flag
are not written. -/
theorem resetKeepsMemoryAndZeroesTheRest : Obligations.ResetKeepsMemoryAndZeroesTheRest := fun s =>
  ⟨hostReset s, rfl, s.restart_reg, rfl, rfl, rfl, hostReset_running_iff s, rfl, State.lookup_of_mem rfl⟩

/-- Settles O41: a failed compile leaves the power-on state (`compileFailed_eq_reset`), so its registers are those of a
restart. -/
theorem powerOnAndFailedCompile : Obligations.PowerOnAndFailedCompile :=
  ⟨State.reset.restart_reg, rfl, rfl, rfl, rfl, rfl, fun _ => rfl,
    fun s => congrArg Host.Outcome.next (compileFailed_eq_reset s), rfl⟩

/-- A memory made from an image that names no address twice holds exactly the image's pairs: the last pair is written last,
and no pair before it has its address. -/
theorem Memory.lookup_ofImage_eq_some_iff {image : List (Word × Word)} (h : image.Pairwise fun p q => p.1 ≠ q.1)
    (a w : Word) : (Memory.ofImage image).lookup a.toNat = some w ↔ (a, w) ∈ image := by
  induction image using List.reverseRecOn with
  | nil => simp [Memory.ofImage]
  | append_singleton image p ih =>
    obtain ⟨b, v⟩ := p
    obtain ⟨hinit, _, hlast⟩ := List.pairwise_append.1 h
    rw [Memory.ofImage_append, Memory.lookup_write, List.mem_append, List.mem_singleton]
    by_cases hab : a = b
    · subst hab
      have hnew : (a, w) ∉ image := fun hmem => hlast _ hmem (a, v) (List.mem_singleton.2 rfl) rfl
      simp [hnew, eq_comm]
    · simp [hab, BitVec.toNat_inj, ih hinit]

/-- Settles O40: the memory by `Memory.lookup_ofImage_eq_some_iff`, the registers by `State.restart_reg`. -/
theorem loadImageReplacesEverything : Obligations.LoadImageReplacesEverything := fun image s h =>
  ⟨loadImage image s, rfl, Memory.lookup_ofImage_eq_some_iff h, s.restart_reg, rfl, rfl, rfl, rfl, rfl⟩

/-! ### A store into the instruction stream (R202) -/

/-- Settles O23: the store leaves its word at the address (`storeAdvance_spec`), the fetch gives the word there, and the step
is its instruction (`step_of_fetch`). -/
theorem storedWordIsWhatTheNextFetchExecutes : Obligations.StoredWordIsWhatTheNextFetchExecutes := by
  intro value base imm4 s a ha
  obtain ⟨hstored, _⟩ := storeAdvance_spec s a (s.reg value)
  refine ⟨_, exec_st_of_address value ha, fun u hu hpc hoor he => step_of_fetch he ?_⟩
  rw [State.fetch_of_in_range hoor, hpc, hu, hstored]

/-! ### Termination (R204) -/

/-- `SetPC` to the own pc changes nothing of a state whose pc is in range (R25). -/
theorem State.setPc_self {s : State} (h : s.pcOor = false) : s.setPc (s.pc.toNat : Int) = s := by
  have hin : ¬ ((s.pc.toNat : Int) < 0 ∨ 0xFFFF < (s.pc.toNat : Int)) := by
    have := s.pc.isLt
    omega
  rw [State.setPc, decide_eq_false hin, ← h, BitVec.ofInt_natCast, BitVec.ofNat_toNat, BitVec.setWidth_eq]

/-- A branch to itself in range changes nothing. -/
theorem exec_br_zero {s : State} (h : s.pcOor = false) : exec (.br 0) s = .next s :=
  congrArg Host.Outcome.next ((congrArg s.setPc (Int.add_zero _)).trans (State.setPc_self h))

/-- The next step of a machine with a word placed for it fetches that word. -/
@[simp] theorem State.fetch_placeWord (s : State) (w : Word) : (s.placeWord w).fetch = some w := by
  rw [State.fetch_of_in_range rfl]
  simp [State.lookup]

/-- A machine that stands at a branch to itself stays there: it is Running and steps for ever. -/
theorem step_placeWord_br_zero (s : State) :
    step (s.placeWord (encode (.br 0))) = .next (s.placeWord (encode (.br 0))) := by
  rw [step_of_fetch rfl (s.fetch_placeWord _), decodeOfEncodeIsIdentity, exec_br_zero rfl]

/-- Settles O43: a branch to itself steps for ever; a `run()` halts (`run_halts`) with no steps left or by the cap (O42), and
without a fault only at a `quit` (`run_standsAtQuit`). -/
theorem runAlwaysEndsStepsNeedNot : Obligations.RunAlwaysEndsStepsNeedNot := by
  refine ⟨⟨State.reset.placeWord (encode (.br 0)), fun n => ⟨_, afterSteps_fixed (step_placeWord_br_zero _) n, rfl⟩⟩,
    fun d s hr hc => ?_⟩
  have he := s.enabled_iff.2 ⟨hr, hc⟩
  obtain ⟨v, k, hrun, _⟩ := run_of_enabled d he
  have hhalt := run_halts hrun he
  obtain ⟨n, u, hn, hsteps, _, ⟨_, hsame⟩ | ⟨_, hcap, _⟩⟩ := runIsAtMostTenThousandSteps d s _ hrun
  · refine ⟨_, u, n, hrun, hhalt, hn, hsteps, .inl ⟨hsame, ?_⟩⟩
    exact or_iff_not_imp_right.2 fun hf => run_standsAtQuit hrun he hhalt (not_not.1 hf)
  · exact ⟨_, u, n, hrun, hhalt, hn, hsteps, .inr hcap⟩

end Sys2Proof.Machine
end

section
/-! SUPPORT. The statement about the example words of spec/95_test_vectors.md. -/

namespace Sys2Proof

/-- Settles O5: each word is packed from the fields of its hexadecimal digits, and its row of the decode table reads them. -/
theorem exampleWordsDecode : Obligations.ExampleWordsDecode :=
  ⟨decodeWord_ldi 0x0 0xFF, decodeWord_ldi 0x0 0x80, decodeWord_add 0x3 0x1 0x2, decodeWord_not 0x3 0x1 0x0,
    decodeWord_ld 0x3 0xF 0x4, decodeWord_st 0x3 0x3 0x4, decodeWord_br 0x0 0xFD, decodeWord_bz 0xF 0xFE,
    decodeWord_jal 0x234, decodeWord_jr 0xA 0xB 0xC, decodeWord_quit 0x123⟩

end Sys2Proof
end
